-- ==== Sys2Proof/Word.lean ====
section
/-! DEFINITION. The byte and the register index: every register, memory cell, address and pc value of the machine is 8 bits wide
(00_scope.md rule R4). -/

namespace Sys2Proof

/-- An 8-bit value: register contents, a memory cell, an address, the pc (rule R4; every value is unsigned, rule R6). -/
abbrev Byte := BitVec 8

/-- The index of one of the 8 registers, 0 to 7 (rules R4, R11). -/
abbrev RegIdx := Fin 8

/-- Register 7 is the stack pointer (rule R12). -/
abbrev spIdx : RegIdx := 7

end Sys2Proof
end

