-- ==== Sys2Proof/Config.lean ====
section
/-! DEFINITION. The types of the machine's configuration (00_scope.md rule R5): the names of the 20 operations, the four formats
and `OPCODE_MAP`. The constraint every map must meet (rule R57) is in Decode.lean, the default values of the parameters are in
Machine/Parameters.lean. -/

namespace Sys2Proof

/-- The 20 operations, in the order of 30_encoding.md rule R56. -/
inductive Op where
  | add | mul | cmp | and | or | xor | not | shl | shr | mod
  | ldi | prn | push | pop | call | ret | jmp | jeq | jne | hlt
  deriving DecidableEq, Repr

/-- The four instruction formats of 30_encoding.md rule R51. -/
inductive Format where
  /-- no operand, 1 byte -/
  | z
  /-- one register operand, 2 bytes -/
  | r
  /-- two register operands, 3 bytes -/
  | rr
  /-- register and immediate, 3 bytes -/
  | ri
  deriving DecidableEq, Repr

/-- `OPCODE_MAP`: the byte value of each of the 20 opcodes, a parameter of a run that no step changes (rules R5, R25, R56). -/
structure OpcodeMap where
  add : Byte
  mul : Byte
  cmp : Byte
  and : Byte
  or : Byte
  xor : Byte
  not : Byte
  shl : Byte
  shr : Byte
  mod : Byte
  ldi : Byte
  prn : Byte
  push : Byte
  pop : Byte
  call : Byte
  ret : Byte
  jmp : Byte
  jeq : Byte
  jne : Byte
  hlt : Byte
  deriving DecidableEq, Repr

end Sys2Proof
end

