-- ==== Sys2Proof/Machine/Parameters.lean ====
section
/-! DEFINITION. The default values of the configuration parameters (00_scope.md rule R5). A statement about a particular byte of
the default map, or about 0xF4, is about this default only (92_eei_decisions.md D1, D3). -/

namespace Sys2Proof

/-- The default `OPCODE_MAP`: the table of 30_encoding.md rule R56.
PRESUMED by the spec (general knowledge of LS-8, D1), unsafe: log entry 1. -/
def defaultOpcodeMap : OpcodeMap where
  add := 0b10100000
  mul := 0b10100010
  cmp := 0b10100111
  and := 0b10101000
  or := 0b10101010
  xor := 0b10101011
  not := 0b01101001
  shl := 0b10101100
  shr := 0b10101101
  mod := 0b10100100
  ldi := 0b10000010
  prn := 0b01000111
  push := 0b01000101
  pop := 0b01000110
  call := 0b01010000
  ret := 0b00010001
  jmp := 0b01010100
  jeq := 0b01010101
  jne := 0b01010110
  hlt := 0b00000001

/-- The default `SP_INIT`, register 7 after reset (10_state.md rule R24).
PRESUMED by the spec (general knowledge of LS-8, D3), unsafe: log entry 2. -/
def defaultSpInit : Byte := 0xF4

end Sys2Proof
end

