-- ==== Sys2Proof/Machine/State.lean ====
section
/-! DEFINITION. The whole architectural state (10_state.md rule R10), as plain data, and the state after reset. -/

namespace Sys2Proof.Machine

/-- The run state (rule R18). -/
inductive RunState where
  | running
  | halted
  deriving DecidableEq, Repr

/-- The sticky fault latch: why the machine stopped (rule R19). -/
inductive FaultLatch where
  | none
  | divZero
  | badReg
  deriving DecidableEq, Repr

/-- The 256 cells of memory (rule R21), as the list of (address, byte) pairs whose byte is not what an unlisted cell reads as.
Canonical form: `Memory.wf` of Machine/Ops.lean (DESIGN CHOICE of representation, safe, log entry 10). -/
abbrev Memory := List Host.Cell

/-- The state of the machine (rule R10). There is nothing else: rules R20, R23. -/
structure State where
  /-- the registers `x[0]` .. `x[7]` (R11); `x[7]` is the stack pointer (R12) -/
  x : Vector Byte 8
  /-- the program counter (R15) -/
  pc : Byte
  /-- the flag "equal" (R17) -/
  E : Bool
  /-- the run state (R18) -/
  run : RunState
  /-- the fault latch (R19) -/
  fault : FaultLatch
  /-- the memory (R21) -/
  mem : Memory
  /-- the output channel, oldest value first (R22) -/
  out : List Byte
  deriving DecidableEq, Repr

/-- Why the model stops: never. The machine's own two faults, `DivideByZero` and `InvalidRegister`, are NEXT states whose
latch and run state say so (60_exceptions.md rules R142, R143), so this type has no constructor; nobody raises one
(DESIGN CHOICE, safe: log entry 18). -/
inductive Fault where
  deriving DecidableEq, Repr

/-- What the model gives no meaning. No step is refused. -/
inductive Refusal where
  /-- An instruction without a meaning yet. Raised by a rejected arm of `exec`, of which there is none. Safe. -/
  | notModelled (mnemonic : String)
  /-- A launch with an image of more than 256 bytes (70_reset_and_hazards.md rule R178). Raised by `launch` alone, never by a
  step. Safe: nothing is claimed of such a run. -/
  | imageTooLong (length : Nat)
  deriving DecidableEq, Repr

/-- The outcome of a step or of an instruction. -/
abbrev Result := Host.Outcome State Fault Refusal

/-- The state at release from reset with stack pointer `spInit` and nothing loaded (rules R24, R171): `x[0..6]` zero, `pc` 0,
`E` 0, RUNNING, no fault, every memory cell 0, `out` empty. -/
def State.resetWith (spInit : Byte) : State where
  x := #v[0, 0, 0, 0, 0, 0, 0, spInit]
  pc := 0
  E := false
  run := .running
  fault := .none
  mem := []
  out := []

/-- The machine right after reset, `SP_INIT` at its default (rule R24; log entries 2 and 11). -/
def State.reset : State := State.resetWith defaultSpInit

end Sys2Proof.Machine
end

