-- ==== Sys2Proof/Machine/Ops.lean ====
section
/-! DEFINITION. The named operations over memory, registers, pc, flag, run state, fault latch and output channel: the primitives
of 00_scope.md rule R7, and taking a fault (60_exceptions.md). -/

namespace Sys2Proof.Machine

/-! ## Memory -/

/-- What a cell that no entry lists reads as: memory is zero until written (10_state.md rule R24, 20_memory.md rule R37). -/
def Memory.unlisted : Byte := 0

/-- The canonical form: addresses strictly rising, each below 256 (rule R30), no entry equal to what an unlisted cell reads as. -/
def Memory.wf (m : Memory) : Bool :=
  decide (m.Pairwise (fun c d => c.1 < d.1)) && m.all (fun c => decide (c.1 < 256) && c.2 != Memory.unlisted)

/-- The byte at a cell. -/
def Memory.readAt : Memory → Nat → Byte
  | [], _ => Memory.unlisted
  | (b, v) :: rest, a => if b = a then v else Memory.readAt rest a

/-- The memory without any entry for a cell: the cell then reads as an unlisted one. -/
def Memory.eraseCell (m : Memory) (a : Nat) : Memory := m.filter (fun c => c.1 != a)

/-- Put an entry before the first entry at a higher address. -/
def Memory.insertCell : Memory → Nat → Byte → Memory
  | [], a, v => [(a, v)]
  | (b, w) :: rest, a, v => if a < b then (a, v) :: (b, w) :: rest else (b, w) :: Memory.insertCell rest a v

/-- Make a cell hold a byte, in canonical form: a byte equal to what an unlisted cell reads as is not listed. -/
def Memory.writeAt (m : Memory) (a : Nat) (v : Byte) : Memory :=
  if v = Memory.unlisted then m.eraseCell a else (m.eraseCell a).insertCell a v

/-- `MemRead(addr, 1)`: one byte, no side effect, at an 8-bit address, so never out of range (rules R31, R32, R36). -/
def State.memRead (s : State) (addr : Byte) : Byte := s.mem.readAt addr.toNat

/-- `MemWrite(addr, 1, v)`: one byte (rules R31, R32). -/
def State.memWrite (s : State) (addr v : Byte) : State := { s with mem := s.mem.writeAt addr.toNat v }

/-! ## Registers -/

/-- `x[i]` (rules R7, R14: no register is hardwired). -/
def State.readReg (s : State) (i : RegIdx) : Byte := s.x[i]

/-- `x[i] <- v`. -/
def State.writeReg (s : State) (i : RegIdx) (v : Byte) : State := { s with x := s.x.set i v }

/-! ## The program counter controller (40_fetch_decode_execute.md rule R74) -/

/-- Sequential advance: `pc <- (pc + width) mod 256`. -/
def State.advance (s : State) (width : Nat) : State := { s with pc := BitVec.ofNat 8 (s.pc.toNat + width) }

/-- Redirect: `pc <- target`, never validated (43_control.md rule R120). -/
def State.redirect (s : State) (target : Byte) : State := { s with pc := target }

/-! ## Run state, output -/

/-- `run <- HALTED` (rule R18). -/
def State.halt (s : State) : State := { s with run := .halted }

/-- `Emit(v)`: append a value to the output channel, which always accepts it (10_state.md rule R22). -/
def State.emit (s : State) (v : Byte) : State := { s with out := s.out ++ [v] }

/-! ## The stack pointer (20_memory.md rule R45) -/

/-- `x[7] <- (x[7] - 1) mod 256`, before a write to the stack. -/
def State.decSp (s : State) : State := s.writeReg spIdx (s.readReg spIdx - 1)

/-- `x[7] <- (x[7] + 1) mod 256`, after a read from the stack. -/
def State.incSp (s : State) : State := s.writeReg spIdx (s.readReg spIdx + 1)

/-- The data address of a stack access: the current `x[7]` (42_load_print_stack.md rule R115). -/
def State.stackAddr (s : State) : Byte := s.readReg spIdx

/-! ## Taking a fault (60_exceptions.md rule R147), and the way out of it

A fault is a forced halt: the latch records the cause, the core halts, nothing is saved, no mode changes and control goes nowhere.
The pc effect is the raiser's (rules R142, R143). There is no return from a fault (rule R148): the only way out is reset,
`hostReset` of Machine/HostInterface.lean. -/

/-- The forced halt: `fault <- cause; run <- HALTED` (rules R7, R147). -/
def State.raise (cause : FaultLatch) (s : State) : State := State.halt { s with fault := cause }

/-- `raise InvalidRegister`: the pc is not advanced, nothing else changes (rule R143; the spec's decision D4, log entry 3). -/
def State.raiseInvalidRegister (s : State) : State := s.raise .badReg

/-- `raise DivideByZero`: the pc moves past the 3-byte `MOD`, nothing else changes (rule R142; D6, log entry 4). -/
def State.raiseDivideByZero (s : State) : State := (s.advance 3).raise .divZero

end Sys2Proof.Machine
end

