-- ==== Sys2Proof/Machine/Flags.lean ====
section
/-! DEFINITION. The one condition flag, "equal" (10_state.md rule R17). -/

namespace Sys2Proof.Machine

/-- The value `CMP` gives the flag: 1 if all 8 bits of the operands agree, else 0 (41_alu.md rule R93; 90_conflicts.md C5). -/
def equalFlag (u v : Byte) : Bool := u == v

/-- `E <- b`. -/
def State.writeE (s : State) (b : Bool) : State := { s with E := b }

end Sys2Proof.Machine
end

