-- ==== Sys2Proof/Machine/Operands.lean ====
section
/-! DEFINITION. The operand forms (30_encoding.md rules R51, R53 to R55): one or two register indices, and the immediate. -/

namespace Sys2Proof.Machine

/-- `reg(op)`: the register an operand byte names; none for a reserved byte, 8 to 255 (rule R54). -/
def reg? (op : Byte) : Option RegIdx :=
  if h : op.toNat < 8 then some ⟨op.toNat, h⟩ else none

/-- The operand byte that names a register: bits 7:3 zero, bits 2:0 the index (rule R51). -/
def regByte (i : RegIdx) : Byte := BitVec.ofNat 8 i.val

/-- Formats R and RI: validate the register-index byte, then run the instruction with register `a = reg(opA)`. The check comes
before any effect (rules R54, R73). -/
def withReg (opA : Byte) (s : State) (run : RegIdx → Result) : Result :=
  match reg? opA with
  | none => .next s.raiseInvalidRegister
  | some a => run a

/-- Format RR: validate both register-index bytes, `opA` then `opB`, then run the instruction (rules R54, R73, R146). -/
def withRegs (opA opB : Byte) (s : State) (run : RegIdx → RegIdx → Result) : Result :=
  withReg opA s (fun a => withReg opB s (fun b => run a b))

/-- The immediate of `LDI`: the byte itself, unsigned and unchanged (rule R55). -/
def immediate (imm8 : Byte) : Byte := imm8

end Sys2Proof.Machine
end

