-- ==== Sys2Proof/Machine/Alu.lean ====
section
/-! DEFINITION. The ten ALU instructions (41_alu.md). -/

namespace Sys2Proof.Machine

/-! ## The results, computed exactly and reduced modulo 256 (rule R90) -/

/-- Rule R91. -/
def aluAdd (u v : Byte) : Byte := BitVec.ofNat 8 (u.toNat + v.toNat)
/-- Rule R92. -/
def aluMul (u v : Byte) : Byte := BitVec.ofNat 8 (u.toNat * v.toNat)
/-- Rule R94. -/
def aluAnd (u v : Byte) : Byte := u &&& v
/-- Rule R95. -/
def aluOr (u v : Byte) : Byte := u ||| v
/-- Rule R96. -/
def aluXor (u v : Byte) : Byte := u ^^^ v
/-- Rule R97. -/
def aluNot (u : Byte) : Byte := BitVec.ofNat 8 (255 - u.toNat)
/-- Rule R98: the whole byte is the amount, never masked; 0 from 8 up (D8, log entry 5). -/
def aluShl (u amount : Byte) : Byte := BitVec.ofNat 8 (u.toNat * 2 ^ amount.toNat)
/-- Rule R99: logical; the whole byte is the amount; 0 from 8 up (D8, log entry 5). -/
def aluShr (u amount : Byte) : Byte := BitVec.ofNat 8 (u.toNat / 2 ^ amount.toNat)
/-- Rule R100, for a divisor that is not 0. -/
def aluMod (u v : Byte) : Byte := BitVec.ofNat 8 (u.toNat % v.toNat)

/-! ## The shared shapes: both sources are read before the destination is written (rule R90) -/

/-- A two-register operation that writes its result to `x[a]` and advances the pc by 3. -/
def aluRegReg (op : Byte → Byte → Byte) (opA opB : Byte) (s : State) : Result :=
  withRegs opA opB s (fun a b => .next ((s.writeReg a (op (s.readReg a) (s.readReg b))).advance 3))

/-- A one-register operation that writes its result to `x[a]` and advances the pc by 2. -/
def aluReg (op : Byte → Byte) (opA : Byte) (s : State) : Result :=
  withReg opA s (fun a => .next ((s.writeReg a (op (s.readReg a))).advance 2))

/-! ## The meanings -/

/-- `ADD Ra, Rb` (rule R91). -/
def execAdd (opA opB : Byte) (s : State) : Result := aluRegReg aluAdd opA opB s

/-- `MUL Ra, Rb` (rule R92). -/
def execMul (opA opB : Byte) (s : State) : Result := aluRegReg aluMul opA opB s

/-- `CMP Ra, Rb`: writes the flag, no register (rule R93). -/
def execCmp (opA opB : Byte) (s : State) : Result :=
  withRegs opA opB s (fun a b => .next ((s.writeE (equalFlag (s.readReg a) (s.readReg b))).advance 3))

/-- `AND Ra, Rb` (rule R94). -/
def execAnd (opA opB : Byte) (s : State) : Result := aluRegReg aluAnd opA opB s

/-- `OR Ra, Rb` (rule R95). -/
def execOr (opA opB : Byte) (s : State) : Result := aluRegReg aluOr opA opB s

/-- `XOR Ra, Rb` (rule R96). -/
def execXor (opA opB : Byte) (s : State) : Result := aluRegReg aluXor opA opB s

/-- `NOT Ra`: one operand, 2 bytes (rule R97; 90_conflicts.md C6). -/
def execNot (opA : Byte) (s : State) : Result := aluReg aluNot opA s

/-- `SHL Ra, Rb` (rule R98). -/
def execShl (opA opB : Byte) (s : State) : Result := aluRegReg aluShl opA opB s

/-- `SHR Ra, Rb` (rule R99). -/
def execShr (opA opB : Byte) (s : State) : Result := aluRegReg aluShr opA opB s

/-- `MOD Ra, Rb`: a divisor of 0 raises `DivideByZero` and leaves `x[a]` (rules R100, R142; 90_conflicts.md C1, C8). -/
def execMod (opA opB : Byte) (s : State) : Result :=
  withRegs opA opB s (fun a b =>
    if s.readReg b = 0 then .next s.raiseDivideByZero
    else .next ((s.writeReg a (aluMod (s.readReg a) (s.readReg b))).advance 3))

end Sys2Proof.Machine
end

