-- ==== Sys2Proof/Machine/Control.lean ====
section
/-! DEFINITION. Control transfer and halt (43_control.md). -/

namespace Sys2Proof.Machine

/-- `CALL Ra`: decrement, store the address after this 2-byte instruction, then jump to `x[a]` as it is after the decrement
(rule R121; D13, log entry 7). -/
def execCall (opA : Byte) (s : State) : Result :=
  withReg opA s (fun a =>
    let s1 := s.decSp
    let s2 := s1.memWrite s1.stackAddr (s1.advance 2).pc
    .next (s2.redirect (s2.readReg a)))

/-- `RET`: jump to the byte on top of the stack, then increment (rule R122). -/
def execRet (s : State) : Result := .next (s.redirect (s.memRead s.stackAddr)).incSp

/-- `JMP Ra` (rule R123). -/
def execJmp (opA : Byte) (s : State) : Result :=
  withReg opA s (fun a => .next (s.redirect (s.readReg a)))

/-- `JEQ Ra`: taken when `E` is 1 (rule R124). -/
def execJeq (opA : Byte) (s : State) : Result :=
  withReg opA s (fun a => .next (if s.E then s.redirect (s.readReg a) else s.advance 2))

/-- `JNE Ra`: taken when `E` is 0 (rule R125). -/
def execJne (opA : Byte) (s : State) : Result :=
  withReg opA s (fun a => .next (if s.E then s.advance 2 else s.redirect (s.readReg a)))

/-- `HLT`: the pc still moves past the byte; `fault` stays (rule R126). -/
def execHlt (s : State) : Result := .next (s.halt.advance 1)

end Sys2Proof.Machine
end

