-- ==== Sys2Proof/Machine/LoadPrintStack.lean ====
section
/-! DEFINITION. Load-immediate, print and the stack instructions (42_load_print_stack.md). The statements of a rule run in the
order written, also where the operand names register 7 (rule R12; D13, log entry 7). -/

namespace Sys2Proof.Machine

/-- `LDI Ra, imm8` (rule R110). -/
def execLdi (opA imm8 : Byte) (s : State) : Result :=
  withReg opA s (fun a => .next ((s.writeReg a (immediate imm8)).advance 3))

/-- `PRN Ra` (rule R111). -/
def execPrn (opA : Byte) (s : State) : Result :=
  withReg opA s (fun a => .next ((s.emit (s.readReg a)).advance 2))

/-- `PUSH Ra`: decrement, then store `x[a]` as it is after the decrement (rule R112). -/
def execPush (opA : Byte) (s : State) : Result :=
  withReg opA s (fun a =>
    let s1 := s.decSp
    .next ((s1.memWrite s1.stackAddr (s1.readReg a)).advance 2))

/-- `POP Ra`: load `x[a]`, then increment the current `x[7]` (rule R113). -/
def execPop (opA : Byte) (s : State) : Result :=
  withReg opA s (fun a => .next ((s.writeReg a (s.memRead s.stackAddr)).incSp.advance 2))

end Sys2Proof.Machine
end

