-- ==== Sys2Proof/Syntax.lean ====
section
/-! DEFINITION. The instructions: one constructor per row of spec/opcode_table.json (30_encoding.md rule R56). -/

namespace Sys2Proof

/-- An instruction with its operand BYTES as fetched, `opA` first (30_encoding.md rules R50, R51, R53).
A register-index byte names a register when it is at most 7; a larger one is a reserved operand whose use raises
`InvalidRegister` (rule R54), so the byte stands here whole (DESIGN CHOICE, safe, log entry 13). -/
inductive Instr where
  | add (opA opB : Byte)
  | mul (opA opB : Byte)
  | cmp (opA opB : Byte)
  | and (opA opB : Byte)
  | or (opA opB : Byte)
  | xor (opA opB : Byte)
  | not (opA : Byte)
  | shl (opA opB : Byte)
  | shr (opA opB : Byte)
  | mod (opA opB : Byte)
  /-- the second operand is the immediate, never a register index (rule R55) -/
  | ldi (opA imm8 : Byte)
  | prn (opA : Byte)
  | push (opA : Byte)
  | pop (opA : Byte)
  | call (opA : Byte)
  | ret
  | jmp (opA : Byte)
  | jeq (opA : Byte)
  | jne (opA : Byte)
  | hlt
  deriving DecidableEq, Repr

end Sys2Proof
end

