-- ==== Sys2Proof/Machine/Dispatch.lean ====
section
/-! DEFINITION. Dispatch: one arm per instruction (40_fetch_decode_execute.md rules R73, R79). -/

namespace Sys2Proof.Machine

def exec (i : Instr) (s : State) : Host.Outcome State Fault Refusal :=
  match i with
  | .add opA opB => Sys2Proof.Machine.execAdd opA opB s
  | .mul opA opB => Sys2Proof.Machine.execMul opA opB s
  | .cmp opA opB => Sys2Proof.Machine.execCmp opA opB s
  | .and opA opB => Sys2Proof.Machine.execAnd opA opB s
  | .or opA opB => Sys2Proof.Machine.execOr opA opB s
  | .xor opA opB => Sys2Proof.Machine.execXor opA opB s
  | .not opA => Sys2Proof.Machine.execNot opA s
  | .shl opA opB => Sys2Proof.Machine.execShl opA opB s
  | .shr opA opB => Sys2Proof.Machine.execShr opA opB s
  | .mod opA opB => Sys2Proof.Machine.execMod opA opB s
  | .ldi opA imm8 => Sys2Proof.Machine.execLdi opA imm8 s
  | .prn opA => Sys2Proof.Machine.execPrn opA s
  | .push opA => Sys2Proof.Machine.execPush opA s
  | .pop opA => Sys2Proof.Machine.execPop opA s
  | .call opA => Sys2Proof.Machine.execCall opA s
  | .ret => Sys2Proof.Machine.execRet s
  | .jmp opA => Sys2Proof.Machine.execJmp opA s
  | .jeq opA => Sys2Proof.Machine.execJeq opA s
  | .jne opA => Sys2Proof.Machine.execJne opA s
  | .hlt => Sys2Proof.Machine.execHlt s

end Sys2Proof.Machine
end

