-- ==== Sys2Proof/Decode.lean ====
section
/-! DEFINITION. The decoder, total on any bytes, and the encoder, both for any `OPCODE_MAP` (30_encoding.md). -/

namespace Sys2Proof

/-! ## The encoding tables -/

/-- The 20 operations, in the order of rule R56. -/
def Op.all : List Op :=
  [.add, .mul, .cmp, .and, .or, .xor, .not, .shl, .shr, .mod,
   .ldi, .prn, .push, .pop, .call, .ret, .jmp, .jeq, .jne, .hlt]

/-- The format of each operation (rules R51, R56). -/
def Op.format : Op → Format
  | .add | .mul | .mod | .cmp | .and | .or | .xor | .shl | .shr => .rr
  | .ldi => .ri
  | .not | .prn | .push | .pop | .call | .jmp | .jeq | .jne => .r
  | .ret | .hlt => .z

/-- The number of operand bytes of a format (rule R51). -/
def Format.operandCount : Format → Nat
  | .z => 0
  | .r => 1
  | .rr | .ri => 2

/-- The operand count of each operation (rule R56, column `n`). -/
def Op.operandCount (k : Op) : Nat := k.format.operandCount

/-- The byte a map gives an operation. -/
def OpcodeMap.byte (m : OpcodeMap) : Op → Byte
  | .add => m.add
  | .mul => m.mul
  | .cmp => m.cmp
  | .and => m.and
  | .or => m.or
  | .xor => m.xor
  | .not => m.not
  | .shl => m.shl
  | .shr => m.shr
  | .mod => m.mod
  | .ldi => m.ldi
  | .prn => m.prn
  | .push => m.push
  | .pop => m.pop
  | .call => m.call
  | .ret => m.ret
  | .jmp => m.jmp
  | .jeq => m.jeq
  | .jne => m.jne
  | .hlt => m.hlt

/-- `n = opcode[7:6]`, the operand-count field of an opcode byte (rule R52). -/
def operandCountField (opcode : Byte) : Nat := (opcode.extractLsb 7 6).toNat

/-- The two constraints on any `OPCODE_MAP` (rule R57): the 20 bytes are pairwise distinct, and bits 7:6 of each are its
operation's operand count. -/
abbrev OpcodeMap.Acceptable (m : OpcodeMap) : Prop :=
  (Op.all.map m.byte).Nodup ∧ ∀ k ∈ Op.all, operandCountField (m.byte k) = k.operandCount

/-- Dispatch on the full opcode byte (rule R73): the operation it selects, none for an unmapped opcode (rule R58). -/
def OpcodeMap.lookup (m : OpcodeMap) (opcode : Byte) : Option Op :=
  Op.all.find? (fun k => m.byte k == opcode)

/-! ## The decoder -/

/-- Why bytes do not decode. -/
inductive DecodeError where
  /-- there is no byte at all -/
  | noBytes
  /-- the opcode byte is none of the map's 20 values (rule R58); at a step this is the spin of rule R78 -/
  | unmappedOpcode (opcode : Byte)
  /-- the list ends before the instruction does; never at a step, where fetch supplies every operand byte -/
  | truncated (opcode : Byte)
  deriving DecidableEq, Repr

/-- The instruction an operation forms with its operand bytes (rules R50, R51); an operand its format lacks is not looked at. -/
def Op.instr (k : Op) (opA opB : Byte) : Instr :=
  match k with
  | .add => .add opA opB
  | .mul => .mul opA opB
  | .cmp => .cmp opA opB
  | .and => .and opA opB
  | .or => .or opA opB
  | .xor => .xor opA opB
  | .not => .not opA
  | .shl => .shl opA opB
  | .shr => .shr opA opB
  | .mod => .mod opA opB
  | .ldi => .ldi opA opB
  | .prn => .prn opA
  | .push => .push opA
  | .pop => .pop opA
  | .call => .call opA
  | .ret => .ret
  | .jmp => .jmp opA
  | .jeq => .jeq opA
  | .jne => .jne opA
  | .hlt => .hlt

/-- The first instruction of a list of bytes in ascending address order, and the bytes after it: opcode, then as many operand
bytes as the operation's format has (rules R50 to R52, R73). -/
def decode (m : OpcodeMap) : List Byte → Except DecodeError (Instr × List Byte)
  | [] => .error .noBytes
  | opcode :: rest =>
    match m.lookup opcode with
    | none => .error (.unmappedOpcode opcode)
    | some k =>
      match k.operandCount, rest with
      | 0, rest => .ok (k.instr 0 0, rest)
      | 1, opA :: rest => .ok (k.instr opA 0, rest)
      | 2, opA :: opB :: rest => .ok (k.instr opA opB, rest)
      | _, _ => .error (.truncated opcode)

/-! ## The encoder -/

/-- The operation of an instruction. -/
def Instr.op : Instr → Op
  | .add _ _ => .add
  | .mul _ _ => .mul
  | .cmp _ _ => .cmp
  | .and _ _ => .and
  | .or _ _ => .or
  | .xor _ _ => .xor
  | .not _ => .not
  | .shl _ _ => .shl
  | .shr _ _ => .shr
  | .mod _ _ => .mod
  | .ldi _ _ => .ldi
  | .prn _ => .prn
  | .push _ => .push
  | .pop _ => .pop
  | .call _ => .call
  | .ret => .ret
  | .jmp _ => .jmp
  | .jeq _ => .jeq
  | .jne _ => .jne
  | .hlt => .hlt

/-- The operand bytes of an instruction in address order, `opA` first (rule R50). -/
def Instr.operandBytes : Instr → List Byte
  | .add a b => [a, b]
  | .mul a b => [a, b]
  | .cmp a b => [a, b]
  | .and a b => [a, b]
  | .or a b => [a, b]
  | .xor a b => [a, b]
  | .not a => [a]
  | .shl a b => [a, b]
  | .shr a b => [a, b]
  | .mod a b => [a, b]
  | .ldi a imm8 => [a, imm8]
  | .prn a => [a]
  | .push a => [a]
  | .pop a => [a]
  | .call a => [a]
  | .ret => []
  | .jmp a => [a]
  | .jeq a => [a]
  | .jne a => [a]
  | .hlt => []

/-- The bytes of an instruction in ascending address order (rules R50, R51). -/
def encode (m : OpcodeMap) (i : Instr) : List Byte := m.byte i.op :: i.operandBytes

/-! ## The opcode table's numbering of bits -/

/-- Byte `k` of the table word `w`: bit 0 is the least significant bit of the first byte. -/
def tableByte (nbits w k : Nat) : Byte := BitVec.ofNat 8 (w % 2 ^ nbits / 2 ^ (8 * k))

/-- The longest instruction's three bytes of a table word, zero above `nbits`, first byte first. -/
def tableBytes (nbits w : Nat) : List Byte := [tableByte nbits w 0, tableByte nbits w 1, tableByte nbits w 2]

/-- The instruction the decoder reads, under the default map, from a word numbered as spec/opcode_table.json numbers it. -/
def decodeTableWord (nbits w : Nat) : Option Instr :=
  match decode defaultOpcodeMap (tableBytes nbits w) with
  | .ok (i, _) => some i
  | .error _ => none

end Sys2Proof
end

