-- ==== Sys2Proof/Machine/Fetch.lean ====
section
/-! DEFINITION. Fetching an instruction's bytes, the two steps that execute none, and placing a word where the next step fetches
(40_fetch_decode_execute.md rules R71, R72, R77, R78). -/

namespace Sys2Proof.Machine

/-- The operand bytes the count field asks for: those at `pc + 1` and `pc + 2`, modulo 256 (rule R72). -/
def State.operandBytes (s : State) (n : Nat) : List Byte :=
  (if n ≥ 1 then [s.memRead (s.pc + 1)] else []) ++ (if n = 2 then [s.memRead (s.pc + 2)] else [])

/-- The bytes a step fetches: the opcode, and for a mapped opcode exactly `n = opcode[7:6]` operand bytes; for an unmapped one
no more (rules R71, R72; 90_conflicts.md C4). -/
def State.fetchBytes (m : OpcodeMap) (s : State) : List Byte :=
  let opcode := s.memRead s.pc
  match m.lookup opcode with
  | none => [opcode]
  | some _ => opcode :: s.operandBytes (operandCountField opcode)

/-- The instruction at the pc, if the opcode there is mapped. -/
def State.fetchInstr (m : OpcodeMap) (s : State) : Option Instr :=
  match decode m (s.fetchBytes m) with
  | .ok (i, _) => some i
  | .error _ => none

/-- In HALTED there is no fetch and no component of the state changes (rule R77; log entry 8). -/
def haltedStep (s : State) : Result := .next s

/-- The step of an unmapped opcode changes nothing, the pc included, so the machine spins (rule R78; 90_conflicts.md C3;
log entry 9). -/
def unmappedStep (s : State) : Result := .next s

/-- `s` with a table word's three bytes at `pc`, `pc + 1`, `pc + 2` and the core RUNNING, which a fetch needs (log entry 11). -/
def State.placeWord (s : State) (nbits w : Nat) : State :=
  { ((s.memWrite s.pc (tableByte nbits w 0)).memWrite (s.pc + 1) (tableByte nbits w 1)).memWrite (s.pc + 2) (tableByte nbits w 2)
    with run := .running }

end Sys2Proof.Machine
end

