-- ==== Sys2Proof/Machine/Step.lean ====
section
/-! DEFINITION. One step of the machine (40_fetch_decode_execute.md rules R70, R79). -/

namespace Sys2Proof.Machine

/-- A step under an opcode map: the run-state test, the fetch, and the instruction. Register-index operands are validated first
thing in each meaning (rule R73). -/
def stepWith (m : OpcodeMap) (s : State) : Host.Outcome State Fault Refusal :=
  match s.run with
  | .halted => haltedStep s
  | .running =>
    match s.fetchInstr m with
    | none => unmappedStep s
    | some i => exec i s

/-- A step of the machine under the default `OPCODE_MAP`. -/
def step : State → Host.Outcome State Fault Refusal := stepWith defaultOpcodeMap

/-- `s` with a table word stored where the next step fetches. -/
def State.withFetchWord (s : State) (nbits w : Nat) : State := s.placeWord nbits w

end Sys2Proof.Machine
end

