-- ==== Sys2Proof/Machine/HostInterface.lean ====
section
/-! DEFINITION. What the host does to the core and reads from it: reset, the loader interface, the status and the rendering of the
output channel (70_reset_and_hazards.md, 10_state.md rule R22, 60_exceptions.md rule R156). No step calls anything here. -/

namespace Sys2Proof.Machine

/-! ## Reset and launch -/

/-- Reset, asserted in any state: exactly the reset state, memory zeroed, the only way out of HALTED (rules R170, R171). -/
def hostReset (spInit : Byte) (_ : State) : State := State.resetWith spInit

/-- The loader: `mem[k + j] = image[j]`, ascending (rule R176). -/
def Memory.loadFrom (m : Memory) (k : Nat) : List Byte → Memory
  | [] => m
  | b :: bs => Memory.loadFrom (m.writeAt k b) (k + 1) bs

/-- Reset, load, release (rule R173). An image of more than 256 bytes has no meaning (rule R178, D19; log entry 15). -/
def launch (spInit : Byte) (image : List Byte) : Result :=
  if image.length ≤ 256 then
    .next { State.resetWith spInit with mem := Memory.loadFrom [] 0 image }
  else .refused (.imageTooLong image.length)

/-! ## The program text format (30_encoding.md rule R62), the host's, not the core's -/

/-- The value of a run of binary digits, most-significant first; none if a character is no digit. -/
def binaryValue (acc : Nat) : List Char → Option Nat
  | [] => some acc
  | c :: cs =>
    if c = '0' then binaryValue (2 * acc) cs
    else if c = '1' then binaryValue (2 * acc + 1) cs
    else none

/-- The byte of a significant line: its first eight characters are binary digits, the rest is ignored. Any other line gives
none (UNVERIFIED for lines of fewer or more than eight digits: log entry 14). -/
def parseLine (line : List Char) : Option Byte :=
  if 8 ≤ line.length then (binaryValue 0 (line.take 8)).map (BitVec.ofNat 8) else none

/-- The bytes of a program text: the `k`-th significant line gives byte `k`; other lines consume no slot. -/
def parseProgram (lines : List (List Char)) : List Byte := lines.filterMap parseLine

/-! ## The status and the output -/

/-- The codes of the fault latch (10_state.md rule R19); 3 is never produced. -/
def FaultLatch.code : FaultLatch → BitVec 2
  | .none => 0
  | .divZero => 1
  | .badReg => 2

/-- What the host can tell apart from the status interface (rule R156, R9). -/
inductive Ending where
  | stillRunning
  | normal
  | divisionByZero
  | invalidRegister
  deriving DecidableEq, Repr

/-- The reading of `run` and `fault` (rule R156). -/
def State.ending (s : State) : Ending :=
  match s.run, s.fault with
  | .running, _ => .stillRunning
  | .halted, .none => .normal
  | .halted, .divZero => .divisionByZero
  | .halted, .badReg => .invalidRegister

/-- A decimal digit. -/
def digitChar (d : Nat) : Char := Char.ofNat (48 + d)

/-- The decimal numeral of a byte: 1 to 3 digits, no sign, no leading zeros (rule R22). -/
def decimal (v : Byte) : List Char :=
  let n := v.toNat
  (if n ≥ 100 then [digitChar (n / 100)] else []) ++ (if n ≥ 10 then [digitChar (n / 10 % 10)] else []) ++ [digitChar (n % 10)]

/-- The console text of an output: each value's numeral and one newline character (rule R22, D11; which character is
PRESUMED, log entry 16). -/
def renderOut (out : List Byte) : List Char := out.flatMap (fun v => decimal v ++ ['\n'])

end Sys2Proof.Machine
end

