-- ==== Sys2Proof/WellFormed.lean ====
section
/-! DEFINITION. Which instructions have only valid register-index operands (30_encoding.md rule R54). -/

namespace Sys2Proof

/-- A register-index operand byte is valid when bits 7:3 are zero, that is when it is at most 7 (rules R51, R54). -/
def validRegByte (op : Byte) : Bool := op.toNat ≤ 7

/-- The register-index operand bytes of an instruction: all its operands but the immediate of `LDI` (rule R53). -/
def Instr.regBytes : Instr → List Byte
  | .add a b => [a, b]
  | .mul a b => [a, b]
  | .cmp a b => [a, b]
  | .and a b => [a, b]
  | .or a b => [a, b]
  | .xor a b => [a, b]
  | .not a => [a]
  | .shl a b => [a, b]
  | .shr a b => [a, b]
  | .mod a b => [a, b]
  | .ldi a _ => [a]
  | .prn a => [a]
  | .push a => [a]
  | .pop a => [a]
  | .call a => [a]
  | .ret => []
  | .jmp a => [a]
  | .jeq a => [a]
  | .jne a => [a]
  | .hlt => []

/-- Every register-index operand is at most 7: the instruction does not raise `InvalidRegister` (rules R54, R143). -/
def Instr.wellFormed (i : Instr) : Bool := i.regBytes.all validRegByte

end Sys2Proof
end

