-- ==== Sys2Proof/Safety.lean ====
section
/-! DEFINITION. The terms claims use: how a run ends (00_scope.md rule R9), the invariant of every step, the frames of the
instructions, and the spec's tables of register accesses (10_state.md rule R13). -/

namespace Sys2Proof.Machine

/-! ## How a run ends (rule R9) -/

/-- The one good end of a run: halted with no fault latched. -/
def State.goodEnd (s : State) : Bool := s.run == .halted && s.fault == .none

/-- Stopped by a fault: never a good end. -/
def State.faulted (s : State) : Bool := s.run == .halted && s.fault != .none

/-- On an unmapped opcode while RUNNING: the step changes nothing, so no end is ever reached (rule R78). -/
def State.spinning (m : OpcodeMap) (s : State) : Bool := s.run == .running && (m.lookup (s.memRead s.pc)).isNone

/-- `k` steps under an opcode map; no step stops, so this is a state. -/
def runWith (m : OpcodeMap) : Nat → State → Result
  | 0, s => .next s
  | k + 1, s =>
    match stepWith m s with
    | .next t => runWith m k t
    | .fault r => .fault r
    | .refused r => .refused r

/-! ## The invariant -/

/-- Memory keeps its canonical form, and a latched fault means a halted core (rule R19: the latch is written in the step that
halts). -/
abbrev State.Inv (s : State) : Prop := s.mem.wf = true ∧ (s.fault ≠ .none → s.run = .halted)

/-! ## Frames -/

/-- The pc moved past an instruction of `width` bytes, modulo 256 (rule R74). -/
abbrev PcAdvanced (width : Nat) (s t : State) : Prop := t.pc.toNat = (s.pc.toNat + width) % 256

/-- Every register but those listed reads as before. -/
abbrev SameRegsBut (rs : List RegIdx) (s t : State) : Prop := ∀ r, r ∉ rs → t.readReg r = s.readReg r

/-- Every cell of memory but those listed reads as before. -/
abbrev SameMemBut (cells : List Byte) (s t : State) : Prop := ∀ c, c ∉ cells → t.memRead c = s.memRead c

/-- Flag, run state, fault latch and output are as before. -/
abbrev SameRest (s t : State) : Prop := t.E = s.E ∧ t.run = s.run ∧ t.fault = s.fault ∧ t.out = s.out

/-- Nothing changed but register `a`, and the pc moved past an instruction of `width` bytes. -/
abbrev OnlyRegChanged (a : RegIdx) (width : Nat) (s t : State) : Prop :=
  SameRegsBut [a] s t ∧ SameMemBut [] s t ∧ SameRest s t ∧ PcAdvanced width s t

/-! ## The table of 10_state.md rule R13 -/

/-- The registers whose old value a well-formed instruction uses: column "registers read", with its conditions. -/
def regsReadBy (i : Instr) (s : State) : List RegIdx :=
  match i with
  | .add a b | .mul a b | .cmp a b | .and a b | .or a b | .xor a b | .shl a b | .shr a b | .mod a b =>
    (reg? a).toList ++ (reg? b).toList
  | .not a | .prn a | .jmp a => (reg? a).toList
  | .ldi _ _ | .hlt => []
  | .push a | .call a => spIdx :: (reg? a).toList
  | .pop _ | .ret => [spIdx]
  | .jeq a => if s.E then (reg? a).toList else []
  | .jne a => if s.E then [] else (reg? a).toList

/-- The registers a well-formed instruction writes: column "registers written", with its condition for `MOD`. -/
def regsWrittenBy (i : Instr) (s : State) : List RegIdx :=
  match i with
  | .add a _ | .mul a _ | .and a _ | .or a _ | .xor a _ | .shl a _ | .shr a _ | .not a | .ldi a _ => (reg? a).toList
  | .mod a b => if (reg? b).map s.readReg = some 0 then [] else (reg? a).toList
  | .pop a => (reg? a).toList ++ [spIdx]
  | .push _ | .call _ | .ret => [spIdx]
  | .cmp _ _ | .prn _ | .jmp _ | .jeq _ | .jne _ | .hlt => []

end Sys2Proof.Machine
end

