-- ==== Sys2Proof/Certificates/Slice0/Obligations.lean ====
section
/-! DEFINITION. The statements about the model, from the numbered rules of the spec. A statement over instructions with reserved
operand bytes says so; the others range over the register indices, and `InvalidRegisterHaltsAndDoesNothingElse` covers the rest. -/

open Sys2Proof Sys2Proof.Machine

/-! ## Encoding -/

/-- Decoding an encoded instruction gives it back, under every acceptable map, for every operand byte, whatever bytes follow
(rules R50 to R52, R73). -/
def Obligations.DecodeOfEncodeIsTheInstruction : Prop :=
  ∀ m : OpcodeMap, m.Acceptable → ∀ (i : Instr) (rest : List Byte), decode m (encode m i ++ rest) = .ok (i, rest)

/-- The bytes an instruction was decoded from are its encoding: the decoder drops no bit, under every map. -/
def Obligations.EncodeOfDecodeIsTheBytes : Prop :=
  ∀ (m : OpcodeMap) (bytes rest : List Byte) (i : Instr), decode m bytes = .ok (i, rest) → bytes = encode m i ++ rest

/-- Rule R57: an acceptable map gives distinct bytes, and bits 7:6 of each are the operand count; the default map is one. -/
def Obligations.AcceptableMapsMeetBothConstraints : Prop :=
  (∀ m : OpcodeMap, m.Acceptable ↔
    (∀ k l : Op, m.byte k = m.byte l → k = l) ∧
    (∀ k ∈ [Op.hlt, .ret], (m.byte k).extractLsb 7 6 = 0b00#2) ∧
    (∀ k ∈ [Op.not, .prn, .push, .pop, .call, .jmp, .jeq, .jne], (m.byte k).extractLsb 7 6 = 0b01#2) ∧
    (∀ k ∈ [Op.add, .mul, .mod, .cmp, .and, .or, .xor, .shl, .shr, .ldi], (m.byte k).extractLsb 7 6 = 0b10#2)) ∧
  defaultOpcodeMap.Acceptable

/-- The opcode bytes of rule R56's table in its order, and bytes written out from the encodings of rules R51 and R56, which decode
to the instructions they stand for. Both are about the default map only (the spec's decision D1, log entry 1). -/
def Obligations.SpecEncodingsDecodeRight : Prop :=
  [Op.add, .mul, .cmp, .and, .or, .xor, .not, .shl, .shr, .mod, .ldi, .prn, .push, .pop, .call, .ret, .jmp, .jeq, .jne, .hlt].map
      defaultOpcodeMap.byte =
    [0xA0, 0xA2, 0xA7, 0xA8, 0xAA, 0xAB, 0x69, 0xAC, 0xAD, 0xA4, 0x82, 0x47, 0x45, 0x46, 0x50, 0x11, 0x54, 0x55, 0x56, 0x01] ∧
  decode defaultOpcodeMap [0b10100000, 0b00000010, 0b00000101] = .ok (.add 2 5, []) ∧
  decode defaultOpcodeMap [0b01101001, 0b00000110] = .ok (.not 6, []) ∧
  decode defaultOpcodeMap [0b10000010, 0b00000001, 0b11111111] = .ok (.ldi 1 255, []) ∧
  decode defaultOpcodeMap [0b01000101, 0b00000011] = .ok (.push 3, []) ∧
  decode defaultOpcodeMap [0b01010000, 0b00000111, 0b00000000] = .ok (.call 7, [0]) ∧
  decode defaultOpcodeMap [0b00010001] = .ok (.ret, []) ∧
  decode defaultOpcodeMap [0b00000000] = .error (.unmappedOpcode 0)

/-- Rule R59: under every acceptable map the 64 opcode values whose bits 7:6 are 0b11 are unmapped, no operand byte is fetched for
one, and its step changes nothing. -/
def Obligations.OperandCountThreeIsUnmapped : Prop :=
  ∀ m : OpcodeMap, m.Acceptable → ∀ opcode : Byte, 0xC0 ≤ opcode.toNat →
    m.lookup opcode = none ∧
    ∀ s : State, s.run = .running → s.memRead s.pc = opcode → s.fetchBytes m = [opcode] ∧ stepWith m s = .next s

/-- From rule R58: 236 of the 256 opcode values are unmapped, under every acceptable map, and 0 is one under the default map. -/
def Obligations.UnmappedOpcodesNumber236 : Prop :=
  (∀ m : OpcodeMap, m.Acceptable →
    ((List.range 256).filter (fun n => (m.lookup (BitVec.ofNat 8 n)).isNone)).length = 236) ∧
  defaultOpcodeMap.lookup 0 = none

/-! ## The step -/

/-- A RUNNING core whose three bytes at the pc (modulo 256) decode to `i` takes exactly `exec i` as its step, under every
acceptable map (rules R71 to R73); `step` is that step under the default map. -/
def Obligations.StepRunsTheDecodedInstruction : Prop :=
  (∀ m : OpcodeMap, m.Acceptable → ∀ (s : State) (i : Instr) (rest : List Byte),
    s.run = .running →
    decode m [s.memRead s.pc, s.memRead (BitVec.ofNat 8 ((s.pc.toNat + 1) % 256)),
      s.memRead (BitVec.ofNat 8 ((s.pc.toNat + 2) % 256))] = .ok (i, rest) →
    stepWith m s = exec i s) ∧
  (∀ s : State, step s = stepWith defaultOpcodeMap s)

/-- Rule R78: the step of an unmapped opcode changes nothing at all, so after any number of steps the core is in the same state,
still RUNNING. -/
def Obligations.UnmappedOpcodeSpinsForever : Prop :=
  ∀ (m : OpcodeMap) (s : State), s.run = .running → m.lookup (s.memRead s.pc) = none →
    stepWith m s = .next s ∧ ∀ k : Nat, runWith m k s = .next s

/-- In HALTED no number of steps changes any component (the spec's decision D14 on rule R77; that such a step answers the same
state is log entry 8). -/
def Obligations.HaltedCoreNeverChanges : Prop :=
  ∀ (m : OpcodeMap) (s : State), s.run = .halted → ∀ k : Nat, runWith m k s = .next s

/-- No step of any state under any map stops: every one answers a next state. The forms that make it so are the model's DESIGN
CHOICES: a fault of the machine is a next state (log entry 18), a halted core's step answers the same state (log entry 8), an
unmapped opcode is a self-loop (log entry 9), and so is a short fetch under a map that breaks rule R57 (log entry 12). -/
def Obligations.EveryStepAnswersANextState : Prop :=
  (∀ (m : OpcodeMap) (s : State), ∃ t, stepWith m s = .next t) ∧ (∀ (i : Instr) (s : State), ∃ t, exec i s = .next t)

/-- A table word that decodes, placed where the next step fetches, is what the next step runs (the model's own placing of a
program: log entry 11). -/
def Obligations.PlacedWordIsTheNextInstruction : Prop :=
  ∀ (s : State) (nbits w : Nat) (i : Instr), decodeTableWord nbits w = some i →
    step (s.withFetchWord nbits w) = exec i (s.withFetchWord nbits w)

/-! ## The invariant -/

/-- The reset state meets the invariant, for every initial stack pointer. -/
def Obligations.ResetMeetsTheInvariant : Prop :=
  (∀ sp : Byte, (State.resetWith sp).Inv) ∧ State.reset.Inv

/-- Every step from a state of canonical memory and consistent latch leads to one, under every map. -/
def Obligations.EveryStepKeepsTheInvariant : Prop :=
  ∀ (m : OpcodeMap) (s t : State), s.Inv → stepWith m s = .next t → t.Inv

/-- A launched machine meets the invariant, whatever its image. -/
def Obligations.LaunchMeetsTheInvariant : Prop :=
  ∀ (sp : Byte) (image : List Byte) (s : State), launch sp image = .next s → s.Inv

/-- The latch is written only in the step that halts, and then by a core that was RUNNING; once the core has halted on it, no
number of steps clears it (the spec's decision D5 on rule R19). -/
def Obligations.LatchIsWrittenOnceWithTheHalt : Prop :=
  ∀ (m : OpcodeMap) (s t : State), stepWith m s = .next t → t.fault ≠ s.fault →
    s.run = .running ∧ t.run = .halted ∧ t.fault ≠ .none ∧ ∀ k : Nat, runWith m k t = .next t

/-! ## Rules about the whole machine -/

/-- Rule R17: only `CMP` writes the flag, to 1 exactly when its operands are equal; no instruction but `JEQ` and `JNE` behaves
differently for another value of it; it is 0 at reset. -/
def Obligations.FlagIsWrittenByCmpAndReadByJumps : Prop :=
  (∀ (i : Instr) (s t : State), (∀ a b : RegIdx, i ≠ .cmp (regByte a) (regByte b)) → exec i s = .next t → t.E = s.E) ∧
  (∀ (a b : RegIdx) (s t : State), exec (.cmp (regByte a) (regByte b)) s = .next t →
    (t.E = true ↔ s.readReg a = s.readReg b)) ∧
  (∀ (i : Instr) (s t : State) (e : Bool), (∀ a, i ≠ .jeq a ∧ i ≠ .jne a) → exec i s = .next t →
    ∃ e', exec i { s with E := e } = .next { t with E := e' }) ∧
  (∀ sp : Byte, (State.resetWith sp).E = false)

/-- Rule R18: a RUNNING core halts in a step exactly when it runs `HLT`, a `MOD` whose divisor is 0, or an instruction with an
invalid register index; a HALTED one never runs again by stepping; it is RUNNING after reset and no instruction's other effect
depends on it. -/
def Obligations.RunStateChangesOnlyByTheThreeHalts : Prop :=
  (∀ (m : OpcodeMap) (s t : State), s.run = .running → stepWith m s = .next t →
    (t.run = .halted ↔ ∃ i, s.fetchInstr m = some i ∧
      (i = .hlt ∨ i.wellFormed = false ∨ ∃ a b : RegIdx, i = .mod (regByte a) (regByte b) ∧ s.readReg b = 0))) ∧
  (∀ (m : OpcodeMap) (s t : State), s.run = .halted → stepWith m s = .next t → t = s) ∧
  (∀ (sp : Byte) (s : State), (hostReset sp s).run = .running) ∧
  (∀ (i : Instr) (s t : State) (r : RunState), s.run = .running → exec i s = .next t →
    exec i { s with run := r } = .next (if t.run = .halted then t else { t with run := r }))

/-- Rule R13: a well-formed instruction changes no register outside its column "registers written", and what it does depends on no
register outside its column "registers read": from two states that agree on everything else and on those, it leaves the same
pc, flag, memory, output, run state, latch and written registers. -/
def Obligations.RegisterAccessesAreThoseOfTheTable : Prop :=
  ∀ (i : Instr) (s t s' t' : State), i.wellFormed = true → exec i s = .next t →
    SameRegsBut (regsWrittenBy i s) s t ∧
    (exec i s' = .next t' → s' = { s with x := s'.x } → (∀ r ∈ regsReadBy i s, s'.readReg r = s.readReg r) →
      regsWrittenBy i s' = regsWrittenBy i s ∧ (∀ r ∈ regsWrittenBy i s, t'.readReg r = t.readReg r) ∧
      t' = { t with x := t'.x })

/-- From rule R74: the pc after every step of a mapped instruction, the pc after `InvalidRegister`, after a `MOD` with a zero divisor
and after an unmapped opcode. That `CALL R7` goes to the decremented stack pointer is the spec's decision D13 (log entry 7), that
`InvalidRegister` leaves the pc its decision D4 (log entry 3), that `MOD` by zero advances it its decision D6 (log entry 4). -/
def Obligations.PcControllerFollowsItsTable : Prop :=
  (∀ (i : Instr) (s t : State), i.wellFormed = true → exec i s = .next t →
    match i with
    | .add _ _ | .mul _ _ | .cmp _ _ | .and _ _ | .or _ _ | .xor _ _ | .shl _ _ | .shr _ _ | .mod _ _ | .ldi _ _ =>
      PcAdvanced 3 s t
    | .not _ | .prn _ | .push _ | .pop _ => PcAdvanced 2 s t
    | .hlt => PcAdvanced 1 s t
    | .jmp opA => ∃ a, opA = regByte a ∧ t.pc = s.readReg a
    | .call opA => ∃ a, opA = regByte a ∧ t.pc = s.decSp.readReg a
    | .jeq opA => if s.E = true then ∃ a, opA = regByte a ∧ t.pc = s.readReg a else PcAdvanced 2 s t
    | .jne opA => if s.E = false then ∃ a, opA = regByte a ∧ t.pc = s.readReg a else PcAdvanced 2 s t
    | .ret => t.pc = s.memRead (s.readReg spIdx)) ∧
  (∀ (i : Instr) (s t : State), i.wellFormed = false → exec i s = .next t → t.pc = s.pc) ∧
  (∀ (m : OpcodeMap) (s t : State), m.lookup (s.memRead s.pc) = none → stepWith m s = .next t → t.pc = s.pc)

/-- No instruction can read the run state, the fault latch or the output channel: from two states that agree on registers, pc, flag
and memory, it leaves the same registers, pc, flag and memory, and appends the same values to the output (from rules R18, R19,
R22). -/
def Obligations.StatusAndOutputNeverInfluenceTheProgram : Prop :=
  ∀ (i : Instr) (s s' : State), s'.x = s.x → s'.pc = s.pc → s'.E = s.E → s'.mem = s.mem →
    ∃ t t' printed, exec i s = .next t ∧ exec i s' = .next t' ∧
      t'.x = t.x ∧ t'.pc = t.pc ∧ t'.E = t.E ∧ t'.mem = t.mem ∧
      t.out = s.out ++ printed ∧ t'.out = s'.out ++ printed

/-- A step leaves the output as it was, or appends the one value of a `PRN` (from rules R22, R127). -/
def Obligations.OutputGrowsOnlyByPrint : Prop :=
  ∀ (m : OpcodeMap) (s t : State), stepWith m s = .next t →
    t.out = s.out ∨ ∃ a : RegIdx, s.fetchInstr m = some (.prn (regByte a)) ∧ t.out = s.out ++ [s.readReg a]

/-- From the data columns of rule R35: only `PUSH` and `CALL` store, one byte, at the decremented stack pointer, and every other
cell reads as before; only `POP` and `RET` read data, at the stack pointer, so no other instruction's effect on anything but
memory depends on memory. -/
def Obligations.DataAccessesAreThoseOfTheTable : Prop :=
  (∀ (i : Instr) (s t : State), (∀ a, i ≠ .push a ∧ i ≠ .call a) → exec i s = .next t → SameMemBut [] s t) ∧
  (∀ (i : Instr) (a : Byte) (s t : State), i = .push a ∨ i = .call a → exec i s = .next t →
    SameMemBut [s.decSp.stackAddr] s t) ∧
  (∀ (i : Instr) (s t s' t' : State), exec i s = .next t → exec i s' = .next t' → s' = { s with mem := s'.mem } →
    ((∃ a, i = .pop a) ∨ i = .ret → s'.memRead s.stackAddr = s.memRead s.stackAddr) → t' = { t with mem := t'.mem })

/-- From rule R9 (the latch is the spec's decision D5): a step of a RUNNING core whose latch is consistent ends the run well exactly
when it runs `HLT`, ends it by a fault exactly when it halts otherwise, and never ends it on an unmapped opcode, where the state
stays the same (that form is log entry 9). In every state the status tells the host a normal end, a division by zero and an
invalid register index apart, each by its own run state and latch (rule R156). -/
def Obligations.EveryEndOfARunIsClassified : Prop :=
  (∀ (m : OpcodeMap) (s t : State), s.Inv → s.run = .running → stepWith m s = .next t →
    (t.goodEnd = true ↔ s.fetchInstr m = some .hlt) ∧
    (t.faulted = true ↔ t.run = .halted ∧ s.fetchInstr m ≠ some .hlt) ∧
    (s.spinning m = true → t = s ∧ t.ending = .stillRunning)) ∧
  (∀ t : State,
    (t.ending = .stillRunning ↔ t.run = .running) ∧
    (t.ending = .normal ↔ t.run = .halted ∧ t.fault = .none) ∧
    (t.ending = .divisionByZero ↔ t.run = .halted ∧ t.fault = .divZero) ∧
    (t.ending = .invalidRegister ↔ t.run = .halted ∧ t.fault = .badReg) ∧
    (t.goodEnd = true ↔ t.ending = .normal) ∧
    (t.faulted = true ↔ t.ending = .divisionByZero ∨ t.ending = .invalidRegister))

/-! ## The ALU instructions -/

/-- Rule R91, whole: encoding (default map), sum modulo 256 in `x[a]`, frame, and `InvalidRegister` for a reserved operand. -/
def Obligations.AddIsTheSumModulo256 : Prop :=
  (∀ (a b : RegIdx) (s : State),
    encode defaultOpcodeMap (.add (regByte a) (regByte b)) = [0b10100000, BitVec.ofNat 8 a, BitVec.ofNat 8 b] ∧
    ∃ t, exec (.add (regByte a) (regByte b)) s = .next t ∧ OnlyRegChanged a 3 s t ∧
      (t.readReg a).toNat = ((s.readReg a).toNat + (s.readReg b).toNat) % 256) ∧
  (∀ (opA opB : Byte) (s : State), 7 < opA.toNat ∨ 7 < opB.toNat → exec (.add opA opB) s = .next s.raiseInvalidRegister)

/-- Rule R92, whole: encoding (default map), low 8 bits of the product in `x[a]`, frame, and `InvalidRegister`. -/
def Obligations.MulIsTheLowByteOfTheProduct : Prop :=
  (∀ (a b : RegIdx) (s : State),
    encode defaultOpcodeMap (.mul (regByte a) (regByte b)) = [0b10100010, BitVec.ofNat 8 a, BitVec.ofNat 8 b] ∧
    ∃ t, exec (.mul (regByte a) (regByte b)) s = .next t ∧ OnlyRegChanged a 3 s t ∧
      (t.readReg a).toNat = (s.readReg a).toNat * (s.readReg b).toNat % 256) ∧
  (∀ (opA opB : Byte) (s : State), 7 < opA.toNat ∨ 7 < opB.toNat → exec (.mul opA opB) s = .next s.raiseInvalidRegister)

/-- Rule R93, whole: encoding (default map), the flag to 1 on equality and to 0 otherwise whatever it was, no register written,
frame, and `InvalidRegister`. -/
def Obligations.CmpSetsAndClearsTheFlag : Prop :=
  (∀ (a b : RegIdx) (s : State),
    encode defaultOpcodeMap (.cmp (regByte a) (regByte b)) = [0b10100111, BitVec.ofNat 8 a, BitVec.ofNat 8 b] ∧
    ∃ t, exec (.cmp (regByte a) (regByte b)) s = .next t ∧
      (s.readReg a = s.readReg b → t.E = true) ∧ (s.readReg a ≠ s.readReg b → t.E = false) ∧
      SameRegsBut [] s t ∧ SameMemBut [] s t ∧ t.run = s.run ∧ t.fault = s.fault ∧ t.out = s.out ∧ PcAdvanced 3 s t) ∧
  (∀ (opA opB : Byte) (s : State), 7 < opA.toNat ∨ 7 < opB.toNat → exec (.cmp opA opB) s = .next s.raiseInvalidRegister)

/-- Rules R94, R95, R96, whole: encodings (default map), the result bit by bit in `x[a]`, frames, and `InvalidRegister`. -/
def Obligations.AndOrXorActBitByBit : Prop :=
  (∀ (a b : RegIdx) (s : State),
    (encode defaultOpcodeMap (.and (regByte a) (regByte b)) = [0b10101000, BitVec.ofNat 8 a, BitVec.ofNat 8 b] ∧
      ∃ t, exec (.and (regByte a) (regByte b)) s = .next t ∧ OnlyRegChanged a 3 s t ∧
        ∀ k : Fin 8, (t.readReg a)[k] = ((s.readReg a)[k] && (s.readReg b)[k])) ∧
    (encode defaultOpcodeMap (.or (regByte a) (regByte b)) = [0b10101010, BitVec.ofNat 8 a, BitVec.ofNat 8 b] ∧
      ∃ t, exec (.or (regByte a) (regByte b)) s = .next t ∧ OnlyRegChanged a 3 s t ∧
        ∀ k : Fin 8, (t.readReg a)[k] = ((s.readReg a)[k] || (s.readReg b)[k])) ∧
    (encode defaultOpcodeMap (.xor (regByte a) (regByte b)) = [0b10101011, BitVec.ofNat 8 a, BitVec.ofNat 8 b] ∧
      ∃ t, exec (.xor (regByte a) (regByte b)) s = .next t ∧ OnlyRegChanged a 3 s t ∧
        ∀ k : Fin 8, ((t.readReg a)[k] = true ↔ (s.readReg a)[k] ≠ (s.readReg b)[k]))) ∧
  (∀ (opA opB : Byte) (s : State), 7 < opA.toNat ∨ 7 < opB.toNat →
    exec (.and opA opB) s = .next s.raiseInvalidRegister ∧ exec (.or opA opB) s = .next s.raiseInvalidRegister ∧
    exec (.xor opA opB) s = .next s.raiseInvalidRegister)

/-- Rule R97, whole: encoding of two bytes (default map), every bit inverted, that is 255 minus the value, in `x[a]`, frame, and
`InvalidRegister`. -/
def Obligations.NotInvertsEveryBit : Prop :=
  (∀ (a : RegIdx) (s : State),
    encode defaultOpcodeMap (.not (regByte a)) = [0b01101001, BitVec.ofNat 8 a] ∧
    ∃ t, exec (.not (regByte a)) s = .next t ∧ OnlyRegChanged a 2 s t ∧
      (t.readReg a).toNat = 255 - (s.readReg a).toNat ∧ ∀ k : Fin 8, (t.readReg a)[k] = !(s.readReg a)[k]) ∧
  (∀ (opA : Byte) (s : State), 7 < opA.toNat → exec (.not opA) s = .next s.raiseInvalidRegister)

/-- From rules R98 and R99: a bit of a shifted value is the bit the whole amount byte away, and zero where there is none, so an
amount of 8 or more gives 0 (that last is the spec's decision D8, log entry 5); frames. -/
def Obligations.ShiftsMoveBitsByTheWholeAmount : Prop :=
  ∀ (a b : RegIdx) (s : State),
    (∃ t, exec (.shl (regByte a) (regByte b)) s = .next t ∧ OnlyRegChanged a 3 s t ∧
      (∀ k : Nat, k < 8 → (t.readReg a).getLsbD k =
        (decide ((s.readReg b).toNat ≤ k) && (s.readReg a).getLsbD (k - (s.readReg b).toNat))) ∧
      (8 ≤ (s.readReg b).toNat → t.readReg a = 0)) ∧
    (∃ t, exec (.shr (regByte a) (regByte b)) s = .next t ∧ OnlyRegChanged a 3 s t ∧
      (∀ k : Nat, k < 8 → (t.readReg a).getLsbD k = (s.readReg a).getLsbD (k + (s.readReg b).toNat)) ∧
      (8 ≤ (s.readReg b).toNat → t.readReg a = 0))

/-- From rule R100: for a divisor that is not 0, `x[a]` becomes the remainder `r < x[b]` of some quotient; a divisor of 0 changes
the pc, the latch and the run state and nothing else (that the pc moves and no memory is written is the spec's decision D6,
log entry 4; the latch is D5). -/
def Obligations.ModIsTheRemainderOrDivideByZero : Prop :=
  ∀ (a b : RegIdx) (s : State),
    (s.readReg b ≠ 0 → ∃ t q, exec (.mod (regByte a) (regByte b)) s = .next t ∧ OnlyRegChanged a 3 s t ∧
      (t.readReg a).toNat < (s.readReg b).toNat ∧
      (s.readReg a).toNat = q * (s.readReg b).toNat + (t.readReg a).toNat) ∧
    (s.readReg b = 0 → ∃ t, exec (.mod (regByte a) (regByte b)) s = .next t ∧ PcAdvanced 3 s t ∧
      t.fault = .divZero ∧ t.run = .halted ∧ SameRegsBut [] s t ∧ SameMemBut [] s t ∧ t.E = s.E ∧ t.out = s.out)

/-! ## Load-immediate, print, stack -/

/-- Rule R110, whole: encoding (default map), the immediate byte unchanged in `x[a]`, any immediate legal, frame, and
`InvalidRegister` for a reserved `opA` only. -/
def Obligations.LdiCopiesTheImmediate : Prop :=
  (∀ (a : RegIdx) (imm8 : Byte) (s : State),
    encode defaultOpcodeMap (.ldi (regByte a) imm8) = [0b10000010, BitVec.ofNat 8 a, imm8] ∧
    ∃ t, exec (.ldi (regByte a) imm8) s = .next t ∧ OnlyRegChanged a 3 s t ∧ t.readReg a = imm8) ∧
  (∀ (opA imm8 : Byte) (s : State), 7 < opA.toNat → exec (.ldi opA imm8) s = .next s.raiseInvalidRegister)

/-- From rule R111 (the split of printing into a byte and its rendering is the spec's decision D11): encoding (default map), `x[a]`
appended to the output, frame, and `InvalidRegister`. -/
def Obligations.PrnAppendsTheRegister : Prop :=
  (∀ (a : RegIdx) (s : State),
    encode defaultOpcodeMap (.prn (regByte a)) = [0b01000111, BitVec.ofNat 8 a] ∧
    ∃ t, exec (.prn (regByte a)) s = .next t ∧ t.out = s.out ++ [s.readReg a] ∧
      SameRegsBut [] s t ∧ SameMemBut [] s t ∧ t.E = s.E ∧ t.run = s.run ∧ t.fault = s.fault ∧ PcAdvanced 2 s t) ∧
  (∀ (opA : Byte) (s : State), 7 < opA.toNat → exec (.prn opA) s = .next s.raiseInvalidRegister)

/-- From rule R112: the stack pointer is decremented modulo 256, then `x[a]` is stored at it, and no other cell changes; `PUSH R7`
stores the decremented pointer (the spec's decision D13, log entry 7). -/
def Obligations.PushDecrementsThenStores : Prop :=
  ∀ (a : RegIdx) (s : State), ∃ t, exec (.push (regByte a)) s = .next t ∧
    (t.readReg spIdx).toNat = ((s.readReg spIdx).toNat + 255) % 256 ∧ SameRegsBut [spIdx] s t ∧
    t.readReg spIdx = s.decSp.stackAddr ∧
    t.memRead s.decSp.stackAddr = (if a = spIdx then s.readReg spIdx - 1 else s.readReg a) ∧
    SameMemBut [s.decSp.stackAddr] s t ∧ SameRest s t ∧ PcAdvanced 2 s t

/-- From rule R113: `x[a]` is loaded from the cell at the stack pointer, then the stack pointer is incremented modulo 256; no cell
changes; `POP R7` ends with the loaded byte plus 1 (the spec's decision D13, log entry 7). -/
def Obligations.PopLoadsThenIncrements : Prop :=
  ∀ (a : RegIdx) (s : State), ∃ t, exec (.pop (regByte a)) s = .next t ∧
    (a ≠ spIdx → t.readReg a = s.memRead (s.readReg spIdx) ∧
      (t.readReg spIdx).toNat = ((s.readReg spIdx).toNat + 1) % 256) ∧
    (a = spIdx → (t.readReg spIdx).toNat = ((s.memRead (s.readReg spIdx)).toNat + 1) % 256) ∧
    SameRegsBut [a, spIdx] s t ∧ SameMemBut [] s t ∧ SameRest s t ∧ PcAdvanced 2 s t

/-- From rule R114: with operands other than register 7, a push and then a pop of one register restores every register; a push of
`a` and a pop into `c` copies; two pushes and two pops reverse the order. -/
def Obligations.StackIsLastInFirstOut : Prop :=
  (∀ (a c : RegIdx) (s t u : State), a ≠ spIdx → c ≠ spIdx →
    exec (.push (regByte a)) s = .next t → exec (.pop (regByte c)) t = .next u →
    u.readReg c = s.readReg a ∧ SameRegsBut [c] s u ∧ u.memRead s.decSp.stackAddr = s.readReg a) ∧
  (∀ (a b c d : RegIdx) (s s1 s2 s3 s4 : State), a ≠ spIdx → b ≠ spIdx → c ≠ spIdx → d ≠ spIdx → c ≠ d →
    exec (.push (regByte a)) s = .next s1 → exec (.push (regByte b)) s1 = .next s2 →
    exec (.pop (regByte c)) s2 = .next s3 → exec (.pop (regByte d)) s3 = .next s4 →
    s4.readReg c = s.readReg b ∧ s4.readReg d = s.readReg a ∧ s4.readReg spIdx = s.readReg spIdx)

/-! ## Control transfer and halt -/

/-- From rule R121: the stack pointer is decremented, the address after the 2-byte call is stored at it modulo 256, no other cell
changes, and the pc becomes `x[a]`, which for `CALL R7` is the decremented pointer (the spec's decision D13, log entry 7). -/
def Obligations.CallPushesTheReturnAddress : Prop :=
  ∀ (a : RegIdx) (s : State), ∃ t, exec (.call (regByte a)) s = .next t ∧
    (t.readReg spIdx).toNat = ((s.readReg spIdx).toNat + 255) % 256 ∧ SameRegsBut [spIdx] s t ∧
    t.readReg spIdx = s.decSp.stackAddr ∧
    (t.memRead s.decSp.stackAddr).toNat = (s.pc.toNat + 2) % 256 ∧ SameMemBut [s.decSp.stackAddr] s t ∧
    t.pc = (if a = spIdx then s.readReg spIdx - 1 else s.readReg a) ∧ SameRest s t

/-- Rule R122, whole: encoding (default map), the pc from the cell at the stack pointer, the stack pointer incremented, frame; and a
call followed by a return, with the stack pointer and the return cell as the call left them, comes back to the address after the
2-byte call with the stack pointer it had. -/
def Obligations.RetPopsThePcAndUndoesACall : Prop :=
  (encode defaultOpcodeMap .ret = [0b00010001] ∧
    ∀ s : State, ∃ t, exec .ret s = .next t ∧ t.pc = s.memRead (s.readReg spIdx) ∧
      (t.readReg spIdx).toNat = ((s.readReg spIdx).toNat + 1) % 256 ∧
      SameRegsBut [spIdx] s t ∧ SameMemBut [] s t ∧ SameRest s t) ∧
  (∀ (a : RegIdx) (s t u v : State), exec (.call (regByte a)) s = .next t →
    u.readReg spIdx = t.readReg spIdx → u.memRead (t.readReg spIdx) = t.memRead (t.readReg spIdx) →
    exec .ret u = .next v → PcAdvanced 2 s v ∧ v.readReg spIdx = s.readReg spIdx)

/-- Rules R123, R124, R125, whole: encodings (default map), the pc to `x[a]` always, when the flag is 1, when it is 0, and otherwise
past the 2 bytes; nothing else changes; `InvalidRegister` for a reserved operand whether or not the jump would be taken. -/
def Obligations.JumpsRedirectByTheFlag : Prop :=
  (∀ (a : RegIdx) (s : State),
    (encode defaultOpcodeMap (.jmp (regByte a)) = [0b01010100, BitVec.ofNat 8 a] ∧
      ∃ t, exec (.jmp (regByte a)) s = .next t ∧ t.pc = s.readReg a ∧
        SameRegsBut [] s t ∧ SameMemBut [] s t ∧ SameRest s t) ∧
    (encode defaultOpcodeMap (.jeq (regByte a)) = [0b01010101, BitVec.ofNat 8 a] ∧
      ∃ t, exec (.jeq (regByte a)) s = .next t ∧ (s.E = true → t.pc = s.readReg a) ∧ (s.E = false → PcAdvanced 2 s t) ∧
        SameRegsBut [] s t ∧ SameMemBut [] s t ∧ SameRest s t) ∧
    (encode defaultOpcodeMap (.jne (regByte a)) = [0b01010110, BitVec.ofNat 8 a] ∧
      ∃ t, exec (.jne (regByte a)) s = .next t ∧ (s.E = false → t.pc = s.readReg a) ∧ (s.E = true → PcAdvanced 2 s t) ∧
        SameRegsBut [] s t ∧ SameMemBut [] s t ∧ SameRest s t)) ∧
  (∀ (opA : Byte) (s : State), 7 < opA.toNat →
    exec (.jmp opA) s = .next s.raiseInvalidRegister ∧ exec (.jeq opA) s = .next s.raiseInvalidRegister ∧
    exec (.jne opA) s = .next s.raiseInvalidRegister)

/-- From rule R120: a jump to its own address is a legal infinite loop, no number of steps changing anything. -/
def Obligations.JumpToItselfLoopsForever : Prop :=
  ∀ (m : OpcodeMap) (s : State) (a : RegIdx), s.run = .running → s.fetchInstr m = some (.jmp (regByte a)) →
    s.readReg a = s.pc → ∀ k : Nat, runWith m k s = .next s

/-- From rule R126: encoding (default map), HALTED, the pc past the byte, nothing else, the latch included. That no later step
changes anything is the spec's decision D14, and that such a step answers the same state is the model's DESIGN CHOICE (log entry
8). -/
def Obligations.HltHaltsPastItsByte : Prop :=
  encode defaultOpcodeMap .hlt = [0b00000001] ∧
  ∀ s : State, ∃ t, exec .hlt s = .next t ∧ t.run = .halted ∧ PcAdvanced 1 s t ∧ t.fault = s.fault ∧ t.E = s.E ∧
    t.out = s.out ∧ SameRegsBut [] s t ∧ SameMemBut [] s t ∧ ∀ m k, runWith m k t = .next t

/-! ## Faults -/

/-- An instruction with a register-index byte above 7 changes the latch and the run state and nothing else, whatever the
instruction, the pc staying at it; a `MOD` with a zero divisor is no exception (the spec's decisions D4 and D20 in rules R143 and
R146, log entry 3). -/
def Obligations.InvalidRegisterHaltsAndDoesNothingElse : Prop :=
  (∀ (i : Instr) (s : State), (∃ op ∈ i.regBytes, 7 < op.toNat) →
    exec i s = .next { s with fault := .badReg, run := .halted }) ∧
  (∀ (opA opB : Byte) (b : RegIdx) (s : State), 7 < opA.toNat → opB = regByte b → s.readReg b = 0 →
    ∃ t, exec (.mod opA opB) s = .next t ∧ t.fault = .badReg ∧ t.pc = s.pc)

/-- From rule R141 (the latch's values are the spec's decision D5): no other condition raises a fault. An instruction that leaves
another latch than it found is a `MOD` of a zero divisor or has a register-index byte above 7, and latches the cause that says so. -/
def Obligations.OnlyTwoConditionsRaiseAFault : Prop :=
  ∀ (i : Instr) (s t : State), exec i s = .next t → t.fault ≠ s.fault →
    (t.fault = .divZero ∧ i.wellFormed = true ∧ ∃ a b : RegIdx, i = .mod (regByte a) (regByte b) ∧ s.readReg b = 0) ∨
    (t.fault = .badReg ∧ i.wellFormed = false)

/-! ## Memory -/

/-- From rules R30, R31 and R36: a read after a write gives the byte written at that cell and the old byte at every other, in every
state, and a write changes nothing but memory. -/
def Obligations.ReadGivesTheByteLastWritten : Prop :=
  ∀ (s : State) (c v : Byte),
    (∀ d : Byte, (s.memWrite c v).memRead d = if d = c then v else s.memRead d) ∧
    s.memWrite c v = { s with mem := (s.memWrite c v).mem }

/-- Two memories in canonical form that read the same in all 256 cells are the same list (the model's representation: log entry
10). -/
def Obligations.CanonicalMemoriesAreExtensional : Prop :=
  ∀ m m' : Memory, m.wf = true → m'.wf = true → (∀ c : Byte, m.readAt c.toNat = m'.readAt c.toNat) → m = m'

/-- From rule R42: a fetch reads the opcode from the memory array itself, so the store of a `PUSH` or a `CALL` is seen by the very
next fetch. A `PUSH` whose store lands on the byte after it fetches that byte next: an unmapped one spins (log entry 9) and the
`HLT` byte halts, as in program P8. A `CALL` whose target is the cell it stores to fetches the return address next; `CALL R7` is
always one. What `PUSH R7` stores and where `CALL R7` goes is the spec's decision D13 (log entry 7). -/
def Obligations.NextFetchSeesThePushedByte : Prop :=
  (∀ (m : OpcodeMap) (s : State), (s.fetchBytes m).head? = some (s.memRead s.pc)) ∧
  (∀ (m : OpcodeMap) (s : State) (a : RegIdx), s.run = .running → s.fetchInstr m = some (.push (regByte a)) →
    s.decSp.stackAddr = BitVec.ofNat 8 ((s.pc.toNat + 2) % 256) →
    ∃ (t : State) (v : Byte), v = (if a = spIdx then s.readReg spIdx - 1 else s.readReg a) ∧
      stepWith m s = .next t ∧ PcAdvanced 2 s t ∧ (t.fetchBytes m).head? = some v ∧
      (m.lookup v = none → stepWith m t = .next t) ∧
      (m.Acceptable → v = m.hlt → stepWith m t = exec .hlt t)) ∧
  (∀ (m : OpcodeMap) (s : State) (a : RegIdx), s.run = .running → s.fetchInstr m = some (.call (regByte a)) →
    a = spIdx ∨ s.readReg a = s.decSp.stackAddr →
    ∃ t, stepWith m s = .next t ∧ t.pc = s.decSp.stackAddr ∧
      (t.fetchBytes m).head? = some (BitVec.ofNat 8 ((s.pc.toNat + 2) % 256)))

/-! ## Reset and launch -/

/-- Rule R171: reset, from any state, for every `SP_INIT`, leaves exactly the reset values. -/
def Obligations.ResetRestoresEveryValue : Prop :=
  ∀ (sp : Byte) (s : State),
    (∀ r : RegIdx, r ≠ spIdx → (hostReset sp s).readReg r = 0) ∧ (hostReset sp s).readReg spIdx = sp ∧
    (hostReset sp s).pc = 0 ∧ (hostReset sp s).E = false ∧ (hostReset sp s).run = .running ∧
    (hostReset sp s).fault = .none ∧ (∀ c : Byte, (hostReset sp s).memRead c = 0) ∧ (hostReset sp s).out = [] ∧
    hostReset sp s = State.resetWith sp

/-- Rule R176: an image of at most 256 bytes lies in memory from address 0 up, every cell beyond it is 0, and nothing else is
initialised. -/
def Obligations.LaunchPlacesTheImageFromZero : Prop :=
  ∀ (sp : Byte) (image : List Byte), image.length ≤ 256 →
    ∃ s, launch sp image = .next s ∧
      (∀ c : Byte, s.memRead c = if h : c.toNat < image.length then image[c.toNat] else 0) ∧
      s = { State.resetWith sp with mem := s.mem }

/-- From rule R178 (the spec's decision D19, log entry 15): an image of more than 256 bytes is refused; the empty image is legal and
spins at pc 0 under the default map. -/
def Obligations.LongImagesAreRefusedAndEmptyOnesSpin : Prop :=
  (∀ (sp : Byte) (image : List Byte), 256 < image.length → launch sp image = .refused (.imageTooLong image.length)) ∧
  (∀ sp : Byte, ∃ s, launch sp [] = .next s ∧ s.pc = 0 ∧ ∀ k : Nat, runWith defaultOpcodeMap k s = .next s)

/-! ## The host's side -/

/-- From rule R22 (the spec's decision D11): the numeral of a byte has 1 to 3 digits, all of them decimal digits, no leading zero in
a numeral of more than one digit, its value is the byte's, and 0 is rendered as the one digit 0. -/
def Obligations.DecimalNumeralOfAByte : Prop :=
  (∀ v : Byte, (decimal v).length ∈ [1, 2, 3] ∧ (∀ c ∈ decimal v, '0' ≤ c ∧ c ≤ '9') ∧
    (1 < (decimal v).length → (decimal v).head? ≠ some '0') ∧
    (decimal v).foldl (fun n c => 10 * n + (c.toNat - 48)) 0 = v.toNat) ∧
  decimal 0 = ['0']

/-- From rule R62: a line that begins with the eight binary digits of a byte, most-significant bit first, gives that byte whatever
follows, and is the next byte of the program; a blank line, any line of fewer than eight characters, and a line whose first eight
characters are not all binary digits gives none and consumes no slot; a text of no lines gives no bytes. That a short line of
binary digits gives none is the model's reading (UNVERIFIED, log entry 14). -/
def Obligations.ProgramLinesGiveTheirBytes : Prop :=
  (∀ (v : Byte) (after : List Char) (lines : List (List Char)),
    parseLine ([7, 6, 5, 4, 3, 2, 1, 0].map (fun k => if v.getLsbD k then '1' else '0') ++ after) = some v ∧
    parseProgram (([7, 6, 5, 4, 3, 2, 1, 0].map (fun k => if v.getLsbD k then '1' else '0') ++ after) :: lines) =
      v :: parseProgram lines) ∧
  (∀ (line : List Char) (lines : List (List Char)), line.length < 8 ∨ (∃ c ∈ line.take 8, c ≠ '0' ∧ c ≠ '1') →
    parseLine line = none ∧ parseProgram (line :: lines) = parseProgram lines) ∧
  parseProgram [] = []

/-- The codes of the latch in rule R19's table (the spec's decision D5): NONE 0, DIV_ZERO 1, BAD_REG 2, and 3 never. -/
def Obligations.LatchCodesAreThoseOfTheTable : Prop :=
  FaultLatch.none.code = 0 ∧ FaultLatch.divZero.code = 1 ∧ FaultLatch.badReg.code = 2 ∧ ∀ f : FaultLatch, f.code ≠ 3

/-- From rule R22 (the spec's decision D11): the console text of an output is, value by value in order, its numeral and one newline
(that the newline is the character 10 is PRESUMED, log entry 16), and it determines the output: different outputs show different
texts. -/
def Obligations.ConsoleTextIsOneNumeralALine : Prop :=
  renderOut [] = [] ∧
  (∀ (v : Byte) (vs : List Byte), renderOut (v :: vs) = decimal v ++ Char.ofNat 10 :: renderOut vs) ∧
  (∀ out out' : List Byte, renderOut out = renderOut out' → out = out')
end

