-- ==== Sys2Proof/Laws/Decode.lean ====
section
/-! SUPPORT. The laws of the dispatch on the opcode byte, and the equations of the decoder. -/

namespace Sys2Proof

theorem Op.mem_all (k : Op) : k ∈ Op.all := by cases k <;> decide

/-- No operation has more than two operand bytes. -/
theorem Op.operandCount_le_two (k : Op) : k.operandCount ≤ 2 := by cases k <;> decide

/-- The count field is the opcode byte divided by 64. -/
theorem operandCountField_eq (opcode : Byte) : operandCountField opcode = opcode.toNat / 64 := by
  have h := opcode.isLt
  simp only [operandCountField, BitVec.extractLsb_toNat, Nat.shiftRight_eq_div_pow]
  omega

/-- Distinct bytes: a map that is acceptable gives no byte to two operations. -/
theorem OpcodeMap.Acceptable.byte_injective {m : OpcodeMap} (h : m.Acceptable) : Function.Injective m.byte :=
  fun k l e => List.inj_on_of_nodup_map h.1 (Op.mem_all k) (Op.mem_all l) e

theorem OpcodeMap.Acceptable.operandCountField_byte {m : OpcodeMap} (h : m.Acceptable) (k : Op) :
    operandCountField (m.byte k) = k.operandCount := h.2 k (Op.mem_all k)

/-- What `lookup` finds has that byte, in every map. -/
theorem OpcodeMap.byte_of_lookup {m : OpcodeMap} {opcode : Byte} {k : Op} (h : m.lookup opcode = some k) :
    m.byte k = opcode := by
  simpa using List.find?_some h

/-- In an acceptable map, `lookup` finds an operation exactly at its byte. -/
theorem OpcodeMap.Acceptable.lookup_eq_some_iff {m : OpcodeMap} (h : m.Acceptable) {opcode : Byte} {k : Op} :
    m.lookup opcode = some k ↔ m.byte k = opcode := by
  refine ⟨OpcodeMap.byte_of_lookup, fun e => ?_⟩
  cases hl : m.lookup opcode with
  | none => exact absurd e (by simpa using List.find?_eq_none.mp hl k (Op.mem_all k))
  | some l => rw [h.byte_injective ((OpcodeMap.byte_of_lookup hl).trans e.symm)]

/-- A byte is unmapped exactly when no operation has it. -/
theorem OpcodeMap.lookup_eq_none_iff {m : OpcodeMap} {opcode : Byte} : m.lookup opcode = none ↔ ∀ k, m.byte k ≠ opcode := by
  simp [OpcodeMap.lookup, List.find?_eq_none, Op.mem_all]

/-! ## The decoder by operand count -/

theorem decode_unmapped {m : OpcodeMap} {opcode : Byte} (h : m.lookup opcode = none) (rest : List Byte) :
    decode m (opcode :: rest) = .error (.unmappedOpcode opcode) := by
  simp [decode, h]

theorem decode_zero {m : OpcodeMap} {opcode : Byte} {k : Op} (h : m.lookup opcode = some k) (hk : k.operandCount = 0)
    (rest : List Byte) : decode m (opcode :: rest) = .ok (k.instr 0 0, rest) := by
  simp [decode, h, hk]

theorem decode_one {m : OpcodeMap} {opcode : Byte} {k : Op} (h : m.lookup opcode = some k) (hk : k.operandCount = 1)
    (opA : Byte) (rest : List Byte) : decode m (opcode :: opA :: rest) = .ok (k.instr opA 0, rest) := by
  simp [decode, h, hk]

theorem decode_two {m : OpcodeMap} {opcode : Byte} {k : Op} (h : m.lookup opcode = some k) (hk : k.operandCount = 2)
    (opA opB : Byte) (rest : List Byte) : decode m (opcode :: opA :: opB :: rest) = .ok (k.instr opA opB, rest) := by
  simp [decode, h, hk]

/-- An operation with one operand byte does not look at the second. -/
theorem Op.instr_of_one {k : Op} (hk : k.operandCount = 1) (a b b' : Byte) : k.instr a b = k.instr a b' := by
  cases k <;> first | rfl | simp [Op.operandCount, Op.format, Format.operandCount] at hk

/-- An operation without operand bytes looks at none. -/
theorem Op.instr_of_zero {k : Op} (hk : k.operandCount = 0) (a b a' b' : Byte) : k.instr a b = k.instr a' b' := by
  cases k <;> first | rfl | simp [Op.operandCount, Op.format, Format.operandCount] at hk

end Sys2Proof
end

