-- ==== Sys2Proof/Laws/Memory.lean ====
section
/-! SUPPORT. The laws of memory: what a read gives after each memory operation, and that each keeps the canonical form. -/

namespace Sys2Proof.Machine

@[simp] theorem Memory.readAt_nil (a : Nat) : Memory.readAt [] a = Memory.unlisted := rfl

/-- A cell that no entry lists reads as unlisted. -/
theorem Memory.readAt_of_not_listed {m : Memory} {a : Nat} (h : ∀ c ∈ m, c.1 ≠ a) : m.readAt a = Memory.unlisted := by
  induction m with
  | nil => rfl
  | cons c rest ih =>
    have hc : c.1 ≠ a := h c (by simp)
    simp only [Memory.readAt, if_neg hc]
    exact ih fun d hd => h d (by simp [hd])

theorem Memory.readAt_erase (m : Memory) (a b : Nat) :
    (m.eraseCell a).readAt b = if b = a then Memory.unlisted else m.readAt b := by
  induction m with
  | nil => simp [Memory.eraseCell]
  | cons c rest ih =>
    obtain ⟨d, w⟩ := c
    have step : Memory.eraseCell ((d, w) :: rest) a = if d = a then Memory.eraseCell rest a else (d, w) :: Memory.eraseCell rest a := by
      by_cases h : d = a <;> simp [Memory.eraseCell, h]
    rw [step]
    by_cases hd : d = a
    · rw [if_pos hd, ih]
      by_cases hb : b = a
      · simp [hb]
      · have : d ≠ b := fun e => hb (e ▸ hd)
        simp [hb, Memory.readAt, this]
    · rw [if_neg hd]
      by_cases hdb : d = b
      · have : b ≠ a := fun e => hd (hdb ▸ e)
        simp [Memory.readAt, hdb, this]
      · simp [Memory.readAt, hdb, ih]

theorem Memory.erase_not_listed (m : Memory) (a : Nat) : ∀ c ∈ m.eraseCell a, c.1 ≠ a := by
  intro c hc
  simpa [Memory.eraseCell] using (List.mem_filter.mp hc).2

theorem Memory.readAt_insert {m : Memory} {a : Nat} (h : ∀ c ∈ m, c.1 ≠ a) (v : Byte) (b : Nat) :
    (m.insertCell a v).readAt b = if b = a then v else m.readAt b := by
  induction m with
  | nil =>
    by_cases hb : b = a
    · simp [Memory.insertCell, Memory.readAt, hb]
    · have : a ≠ b := fun e => hb e.symm
      simp [Memory.insertCell, Memory.readAt, hb, this]
  | cons c rest ih =>
    obtain ⟨d, w⟩ := c
    have hda : d ≠ a := h (d, w) (by simp)
    have ih := ih fun e he => h e (by simp [he])
    by_cases hlt : a < d
    · by_cases hb : b = a
      · simp [Memory.insertCell, hlt, Memory.readAt, hb]
      · have : a ≠ b := fun e => hb e.symm
        simp [Memory.insertCell, hlt, Memory.readAt, hb, this]
    · by_cases hdb : d = b
      · subst hdb
        simp [Memory.insertCell, hlt, Memory.readAt, hda]
      · simp [Memory.insertCell, hlt, Memory.readAt, hdb, ih]

/-- A read after a write gives the byte written at the same cell and the old byte at every other, in every memory. -/
theorem Memory.readAt_writeAt (m : Memory) (a : Nat) (v : Byte) (b : Nat) :
    (m.writeAt a v).readAt b = if b = a then v else m.readAt b := by
  unfold Memory.writeAt
  split
  · next hv => rw [Memory.readAt_erase, hv]
  · rw [Memory.readAt_insert (Memory.erase_not_listed m a), Memory.readAt_erase]
    by_cases hb : b = a <;> simp [hb]

/-- What the canonical form says. -/
theorem Memory.wf_iff (m : Memory) :
    m.wf = true ↔ m.Pairwise (fun c d => c.1 < d.1) ∧ ∀ c ∈ m, c.1 < 256 ∧ c.2 ≠ Memory.unlisted := by
  simp [Memory.wf]

theorem Memory.wf_erase {m : Memory} (h : m.wf = true) (a : Nat) : (m.eraseCell a).wf = true := by
  rw [Memory.wf_iff] at *
  exact ⟨h.1.filter _, fun c hc => h.2 c (List.mem_filter.mp hc).1⟩

theorem Memory.mem_insert {m : Memory} {a : Nat} {v : Byte} {c : Host.Cell} :
    c ∈ m.insertCell a v ↔ c = (a, v) ∨ c ∈ m := by
  induction m with
  | nil => simp [Memory.insertCell]
  | cons d rest ih =>
    obtain ⟨d, w⟩ := d
    by_cases hlt : a < d
    · simp [Memory.insertCell, hlt]
    · simp only [Memory.insertCell, if_neg hlt, List.mem_cons, ih]
      tauto

theorem Memory.sorted_insert {m : Memory} {a : Nat} {v : Byte} (h : m.Pairwise (fun c d => c.1 < d.1))
    (ha : ∀ c ∈ m, c.1 ≠ a) : (m.insertCell a v).Pairwise (fun c d => c.1 < d.1) := by
  induction m with
  | nil => simp [Memory.insertCell]
  | cons d rest ih =>
    obtain ⟨d, w⟩ := d
    rw [List.pairwise_cons] at h
    have hda : d ≠ a := ha (d, w) (by simp)
    by_cases hlt : a < d
    · simp only [Memory.insertCell, if_pos hlt, List.pairwise_cons]
      refine ⟨fun c hc => ?_, h.1, h.2⟩
      rcases List.mem_cons.mp hc with rfl | hc
      · exact hlt
      · exact Nat.lt_trans hlt (h.1 c hc)
    · simp only [Memory.insertCell, if_neg hlt, List.pairwise_cons]
      refine ⟨fun c hc => ?_, ih h.2 fun c hc => ha c (by simp [hc])⟩
      rcases Memory.mem_insert.mp hc with rfl | hc
      · show d < a
        omega
      · exact h.1 c hc

theorem Memory.wf_insert {m : Memory} (h : m.wf = true) {a : Nat} (ha : ∀ c ∈ m, c.1 ≠ a) (ha' : a < 256) {v : Byte}
    (hv : v ≠ Memory.unlisted) : (m.insertCell a v).wf = true := by
  rw [Memory.wf_iff] at *
  refine ⟨Memory.sorted_insert h.1 ha, fun c hc => ?_⟩
  rcases Memory.mem_insert.mp hc with rfl | hc
  · exact ⟨ha', hv⟩
  · exact h.2 c hc

/-- Every write keeps the canonical form. -/
theorem Memory.wf_writeAt {m : Memory} (h : m.wf = true) {a : Nat} (ha : a < 256) (v : Byte) : (m.writeAt a v).wf = true := by
  unfold Memory.writeAt
  split
  · exact Memory.wf_erase h a
  · next hv => exact Memory.wf_insert (Memory.wf_erase h a) (Memory.erase_not_listed m a) ha hv

theorem Memory.wf_nil : Memory.wf [] = true := rfl

/-- The store of a byte by the core keeps the canonical form. -/
theorem memWrite_wf {s : State} (h : s.mem.wf = true) (a v : Byte) : (s.memWrite a v).mem.wf = true :=
  Memory.wf_writeAt h a.isLt v

end Sys2Proof.Machine
end

