-- ==== Sys2Proof/Laws/State.lean ====
section
/-! SUPPORT. One lemma per field per update of the state, all by `rfl`. -/

namespace Sys2Proof.Machine

variable (s : State) (i : RegIdx) (a v : Byte) (n : Nat) (b : Bool) (f : FaultLatch)

@[simp] theorem memWrite_x : (s.memWrite a v).x = s.x := rfl
@[simp] theorem memWrite_pc : (s.memWrite a v).pc = s.pc := rfl
@[simp] theorem memWrite_E : (s.memWrite a v).E = s.E := rfl
@[simp] theorem memWrite_run : (s.memWrite a v).run = s.run := rfl
@[simp] theorem memWrite_fault : (s.memWrite a v).fault = s.fault := rfl
@[simp] theorem memWrite_mem : (s.memWrite a v).mem = s.mem.writeAt a.toNat v := rfl
@[simp] theorem memWrite_out : (s.memWrite a v).out = s.out := rfl

@[simp] theorem writeReg_x : (s.writeReg i v).x = s.x.set i v := rfl
@[simp] theorem writeReg_pc : (s.writeReg i v).pc = s.pc := rfl
@[simp] theorem writeReg_E : (s.writeReg i v).E = s.E := rfl
@[simp] theorem writeReg_run : (s.writeReg i v).run = s.run := rfl
@[simp] theorem writeReg_fault : (s.writeReg i v).fault = s.fault := rfl
@[simp] theorem writeReg_mem : (s.writeReg i v).mem = s.mem := rfl
@[simp] theorem writeReg_out : (s.writeReg i v).out = s.out := rfl

@[simp] theorem advance_x : (s.advance n).x = s.x := rfl
@[simp] theorem advance_pc : (s.advance n).pc = BitVec.ofNat 8 (s.pc.toNat + n) := rfl
@[simp] theorem advance_E : (s.advance n).E = s.E := rfl
@[simp] theorem advance_run : (s.advance n).run = s.run := rfl
@[simp] theorem advance_fault : (s.advance n).fault = s.fault := rfl
@[simp] theorem advance_mem : (s.advance n).mem = s.mem := rfl
@[simp] theorem advance_out : (s.advance n).out = s.out := rfl

@[simp] theorem redirect_x : (s.redirect v).x = s.x := rfl
@[simp] theorem redirect_pc : (s.redirect v).pc = v := rfl
@[simp] theorem redirect_E : (s.redirect v).E = s.E := rfl
@[simp] theorem redirect_run : (s.redirect v).run = s.run := rfl
@[simp] theorem redirect_fault : (s.redirect v).fault = s.fault := rfl
@[simp] theorem redirect_mem : (s.redirect v).mem = s.mem := rfl
@[simp] theorem redirect_out : (s.redirect v).out = s.out := rfl

@[simp] theorem halt_x : s.halt.x = s.x := rfl
@[simp] theorem halt_pc : s.halt.pc = s.pc := rfl
@[simp] theorem halt_E : s.halt.E = s.E := rfl
@[simp] theorem halt_run : s.halt.run = .halted := rfl
@[simp] theorem halt_fault : s.halt.fault = s.fault := rfl
@[simp] theorem halt_mem : s.halt.mem = s.mem := rfl
@[simp] theorem halt_out : s.halt.out = s.out := rfl

@[simp] theorem emit_x : (s.emit v).x = s.x := rfl
@[simp] theorem emit_pc : (s.emit v).pc = s.pc := rfl
@[simp] theorem emit_E : (s.emit v).E = s.E := rfl
@[simp] theorem emit_run : (s.emit v).run = s.run := rfl
@[simp] theorem emit_fault : (s.emit v).fault = s.fault := rfl
@[simp] theorem emit_mem : (s.emit v).mem = s.mem := rfl
@[simp] theorem emit_out : (s.emit v).out = s.out ++ [v] := rfl

@[simp] theorem writeE_x : (s.writeE b).x = s.x := rfl
@[simp] theorem writeE_pc : (s.writeE b).pc = s.pc := rfl
@[simp] theorem writeE_E : (s.writeE b).E = b := rfl
@[simp] theorem writeE_run : (s.writeE b).run = s.run := rfl
@[simp] theorem writeE_fault : (s.writeE b).fault = s.fault := rfl
@[simp] theorem writeE_mem : (s.writeE b).mem = s.mem := rfl
@[simp] theorem writeE_out : (s.writeE b).out = s.out := rfl

@[simp] theorem raise_x : (s.raise f).x = s.x := rfl
@[simp] theorem raise_pc : (s.raise f).pc = s.pc := rfl
@[simp] theorem raise_E : (s.raise f).E = s.E := rfl
@[simp] theorem raise_run : (s.raise f).run = .halted := rfl
@[simp] theorem raise_fault : (s.raise f).fault = f := rfl
@[simp] theorem raise_mem : (s.raise f).mem = s.mem := rfl
@[simp] theorem raise_out : (s.raise f).out = s.out := rfl

/-- A state is its seven components (rule R10: there is no other). -/
theorem State.eq_of_fields {s t : State} (hx : s.x = t.x) (hpc : s.pc = t.pc) (hE : s.E = t.E) (hrun : s.run = t.run)
    (hfault : s.fault = t.fault) (hmem : s.mem = t.mem) (hout : s.out = t.out) : s = t := by
  cases s
  cases t
  simp_all

end Sys2Proof.Machine
end

