-- ==== Sys2Proof/Laws/Ops.lean ====
section
/-! SUPPORT. One spec lemma per shared operation: what a read of a register or a cell gives after it, and which two ways an
operand form can go. Provers cite these and do not unfold the operations. -/

namespace Sys2Proof.Machine

variable (s : State) (i j : RegIdx) (a c v : Byte) (n : Nat) (f : FaultLatch) (b : Bool)

/-! ## Reads of registers -/

@[simp] theorem readReg_writeReg : (s.writeReg i v).readReg j = if j = i then v else s.readReg j := by
  by_cases h : j = i
  · subst h
    simp [State.readReg, State.writeReg]
  · have : (i : Nat) ≠ j := fun e => h (Fin.ext e.symm)
    simp [State.readReg, State.writeReg, h, this]

@[simp] theorem readReg_memWrite : (s.memWrite a v).readReg j = s.readReg j := rfl
@[simp] theorem readReg_advance : (s.advance n).readReg j = s.readReg j := rfl
@[simp] theorem readReg_redirect : (s.redirect v).readReg j = s.readReg j := rfl
@[simp] theorem readReg_halt : s.halt.readReg j = s.readReg j := rfl
@[simp] theorem readReg_emit : (s.emit v).readReg j = s.readReg j := rfl
@[simp] theorem readReg_writeE : (s.writeE b).readReg j = s.readReg j := rfl
@[simp] theorem readReg_raise : (s.raise f).readReg j = s.readReg j := rfl

/-- Two states that read the same in every register have the same registers. -/
theorem x_eq_of_readReg {s t : State} (h : ∀ r, s.readReg r = t.readReg r) : s.x = t.x := by
  apply Vector.ext
  intro k hk
  exact h ⟨k, hk⟩

/-! ## Reads of memory -/

@[simp] theorem memRead_memWrite : (s.memWrite a v).memRead c = if c = a then v else s.memRead c := by
  have : (c.toNat = a.toNat) ↔ c = a := BitVec.toNat_inj
  simp [State.memRead, State.memWrite, Memory.readAt_writeAt, this]

@[simp] theorem memRead_writeReg : (s.writeReg i v).memRead c = s.memRead c := rfl
@[simp] theorem memRead_advance : (s.advance n).memRead c = s.memRead c := rfl
@[simp] theorem memRead_redirect : (s.redirect v).memRead c = s.memRead c := rfl
@[simp] theorem memRead_halt : s.halt.memRead c = s.memRead c := rfl
@[simp] theorem memRead_emit : (s.emit v).memRead c = s.memRead c := rfl
@[simp] theorem memRead_writeE : (s.writeE b).memRead c = s.memRead c := rfl
@[simp] theorem memRead_raise : (s.raise f).memRead c = s.memRead c := rfl

/-! ## The stack pointer and the two faults, as the operations they are made of -/

@[simp] theorem decSp_eq : s.decSp = s.writeReg spIdx (s.readReg spIdx - 1) := rfl
@[simp] theorem incSp_eq : s.incSp = s.writeReg spIdx (s.readReg spIdx + 1) := rfl
@[simp] theorem stackAddr_eq : s.stackAddr = s.readReg spIdx := rfl
@[simp] theorem raiseInvalidRegister_eq : s.raiseInvalidRegister = s.raise .badReg := rfl
@[simp] theorem raiseDivideByZero_eq : s.raiseDivideByZero = (s.advance 3).raise .divZero := rfl

/-! ## Operand bytes -/

/-- The byte of an index names that register. -/
@[simp] theorem reg?_regByte : reg? (regByte i) = some i := by
  revert i
  decide

theorem reg?_eq_none_iff (op : Byte) : reg? op = none ↔ 7 < op.toNat := by
  unfold reg?
  split <;> simp <;> omega

theorem reg?_eq_some_iff (op : Byte) : reg? op = some i ↔ op = regByte i := by
  constructor
  · intro h
    unfold reg? at h
    split at h
    · obtain rfl := Option.some.inj h
      apply BitVec.eq_of_toNat_eq
      simp [regByte]
    · cases h
  · rintro rfl
    simp

/-- The validity check of WellFormed.lean is the existence of the register. -/
theorem validRegByte_iff (op : Byte) : validRegByte op = true ↔ ∃ i, op = regByte i := by
  constructor
  · intro h
    have hlt : op.toNat < 8 := by
      have := of_decide_eq_true h
      omega
    exact ⟨⟨op.toNat, hlt⟩, (reg?_eq_some_iff _ _).mp (by simp [reg?, hlt])⟩
  · rintro ⟨i, rfl⟩
    revert i
    decide

@[simp] theorem withReg_regByte (run : RegIdx → Result) : withReg (regByte i) s run = run i := by
  simp [withReg]

@[simp] theorem withRegs_regByte (run : RegIdx → RegIdx → Result) :
    withRegs (regByte i) (regByte j) s run = run i j := by
  simp [withRegs]

/-- The two ways a one-register form goes. -/
theorem withReg_cases (op : Byte) (run : RegIdx → Result) :
    (7 < op.toNat ∧ withReg op s run = .next s.raiseInvalidRegister) ∨
    ∃ i, op = regByte i ∧ withReg op s run = run i := by
  cases h : reg? op with
  | none => exact .inl ⟨(reg?_eq_none_iff op).mp h, by simp [withReg, h]⟩
  | some i => exact .inr ⟨i, (reg?_eq_some_iff i op).mp h, by simp [withReg, h]⟩

/-- The two ways a two-register form goes. -/
theorem withRegs_cases (opA opB : Byte) (run : RegIdx → RegIdx → Result) :
    ((7 < opA.toNat ∨ 7 < opB.toNat) ∧ withRegs opA opB s run = .next s.raiseInvalidRegister) ∨
    ∃ i j, opA = regByte i ∧ opB = regByte j ∧ withRegs opA opB s run = run i j := by
  unfold withRegs
  rcases withReg_cases s opA (fun a => withReg opB s (fun b => run a b)) with ⟨h, e⟩ | ⟨i, rfl, e⟩
  · exact .inl ⟨.inl h, e⟩
  · rcases withReg_cases s opB (fun b => run i b) with ⟨h, e'⟩ | ⟨j, rfl, e'⟩
    · exact .inl ⟨.inr h, e.trans e'⟩
    · exact .inr ⟨i, j, rfl, rfl, e.trans e'⟩

/-- The two ways a two-register ALU operation goes. -/
theorem aluRegReg_cases (op : Byte → Byte → Byte) (opA opB : Byte) :
    ((7 < opA.toNat ∨ 7 < opB.toNat) ∧ aluRegReg op opA opB s = .next s.raiseInvalidRegister) ∨
    ∃ i j, opA = regByte i ∧ opB = regByte j ∧
      aluRegReg op opA opB s = .next ((s.writeReg i (op (s.readReg i) (s.readReg j))).advance 3) :=
  withRegs_cases s opA opB _

/-- The two ways a one-register ALU operation goes. -/
theorem aluReg_cases (op : Byte → Byte) (opA : Byte) :
    (7 < opA.toNat ∧ aluReg op opA s = .next s.raiseInvalidRegister) ∨
    ∃ i, opA = regByte i ∧ aluReg op opA s = .next ((s.writeReg i (op (s.readReg i))).advance 2) :=
  withReg_cases s opA _

/-! ## The ALU results as numbers -/

theorem aluAdd_toNat (u v : Byte) : (aluAdd u v).toNat = (u.toNat + v.toNat) % 256 := rfl
theorem aluMul_toNat (u v : Byte) : (aluMul u v).toNat = u.toNat * v.toNat % 256 := rfl
theorem aluShl_toNat (u v : Byte) : (aluShl u v).toNat = u.toNat * 2 ^ v.toNat % 256 := rfl

theorem aluNot_toNat (u : Byte) : (aluNot u).toNat = 255 - u.toNat := by
  simp only [aluNot, BitVec.toNat_ofNat]
  omega

theorem aluShr_toNat (u v : Byte) : (aluShr u v).toNat = u.toNat / 2 ^ v.toNat := by
  simp only [aluShr, BitVec.toNat_ofNat]
  exact Nat.mod_eq_of_lt (Nat.lt_of_le_of_lt (Nat.div_le_self _ _) u.isLt)

theorem aluMod_toNat (u v : Byte) : (aluMod u v).toNat = u.toNat % v.toNat := by
  simp only [aluMod, BitVec.toNat_ofNat]
  exact Nat.mod_eq_of_lt (Nat.lt_of_le_of_lt (Nat.mod_le _ _) u.isLt)

end Sys2Proof.Machine
end

