-- ==== Sys2Proof/Laws/Exec.lean ====
section
/-! SUPPORT. One equation per instruction, for register operands, over the shared operations: provers rewrite with these and do
not unfold `exec`. -/

namespace Sys2Proof.Machine

variable (a b : RegIdx) (v : Byte) (s : State)

theorem exec_add : exec (.add (regByte a) (regByte b)) s =
    .next ((s.writeReg a (aluAdd (s.readReg a) (s.readReg b))).advance 3) := withRegs_regByte s a b _

theorem exec_mul : exec (.mul (regByte a) (regByte b)) s =
    .next ((s.writeReg a (aluMul (s.readReg a) (s.readReg b))).advance 3) := withRegs_regByte s a b _

theorem exec_cmp : exec (.cmp (regByte a) (regByte b)) s =
    .next ((s.writeE (equalFlag (s.readReg a) (s.readReg b))).advance 3) := withRegs_regByte s a b _

theorem exec_and : exec (.and (regByte a) (regByte b)) s =
    .next ((s.writeReg a (aluAnd (s.readReg a) (s.readReg b))).advance 3) := withRegs_regByte s a b _

theorem exec_or : exec (.or (regByte a) (regByte b)) s =
    .next ((s.writeReg a (aluOr (s.readReg a) (s.readReg b))).advance 3) := withRegs_regByte s a b _

theorem exec_xor : exec (.xor (regByte a) (regByte b)) s =
    .next ((s.writeReg a (aluXor (s.readReg a) (s.readReg b))).advance 3) := withRegs_regByte s a b _

theorem exec_not : exec (.not (regByte a)) s =
    .next ((s.writeReg a (aluNot (s.readReg a))).advance 2) := withReg_regByte s a _

theorem exec_shl : exec (.shl (regByte a) (regByte b)) s =
    .next ((s.writeReg a (aluShl (s.readReg a) (s.readReg b))).advance 3) := withRegs_regByte s a b _

theorem exec_shr : exec (.shr (regByte a) (regByte b)) s =
    .next ((s.writeReg a (aluShr (s.readReg a) (s.readReg b))).advance 3) := withRegs_regByte s a b _

theorem exec_mod : exec (.mod (regByte a) (regByte b)) s =
    if s.readReg b = 0 then .next s.raiseDivideByZero
    else .next ((s.writeReg a (aluMod (s.readReg a) (s.readReg b))).advance 3) := withRegs_regByte s a b _

theorem exec_ldi : exec (.ldi (regByte a) v) s = .next ((s.writeReg a v).advance 3) := withReg_regByte s a _

theorem exec_prn : exec (.prn (regByte a)) s = .next ((s.emit (s.readReg a)).advance 2) := withReg_regByte s a _

theorem exec_push : exec (.push (regByte a)) s =
    .next ((s.decSp.memWrite s.decSp.stackAddr (s.decSp.readReg a)).advance 2) := withReg_regByte s a _

theorem exec_pop : exec (.pop (regByte a)) s =
    .next ((s.writeReg a (s.memRead s.stackAddr)).incSp.advance 2) := withReg_regByte s a _

theorem exec_call : exec (.call (regByte a)) s =
    .next ((s.decSp.memWrite s.decSp.stackAddr (s.decSp.advance 2).pc).redirect (s.decSp.readReg a)) := withReg_regByte s a _

theorem exec_ret : exec .ret s = .next (s.redirect (s.memRead s.stackAddr)).incSp := rfl

theorem exec_jmp : exec (.jmp (regByte a)) s = .next (s.redirect (s.readReg a)) := withReg_regByte s a _

theorem exec_jeq : exec (.jeq (regByte a)) s =
    .next (if s.E then s.redirect (s.readReg a) else s.advance 2) := withReg_regByte s a _

theorem exec_jne : exec (.jne (regByte a)) s =
    .next (if s.E then s.advance 2 else s.redirect (s.readReg a)) := withReg_regByte s a _

theorem exec_hlt : exec .hlt s = .next (s.halt.advance 1) := rfl

end Sys2Proof.Machine
end

