-- ==== Sys2Proof/Laws/HostInterface.lean ====
section
/-! SUPPORT. The digits of the console text (10_state.md rule R22): what a digit's character is, and that a numeral holds no
newline. -/

namespace Sys2Proof.Machine

/-- A digit's character is one of 0 to 9, is 0 only for the digit 0, and gives the digit back. -/
theorem digitChar_spec : ∀ d : Nat, d < 10 →
    '0' ≤ digitChar d ∧ digitChar d ≤ '9' ∧ (digitChar d = '0' → d = 0) ∧ (digitChar d).toNat - 48 = d ∧
      digitChar d ≠ '\n' := by
  decide

/-- Every character of a numeral is a digit's. -/
theorem exists_digit_of_mem_decimal {v : Byte} {c : Char} (h : c ∈ decimal v) : ∃ d, d < 10 ∧ c = digitChar d := by
  have hv := v.isLt
  simp only [decimal, List.mem_append, List.mem_singleton] at h
  rcases h with (h | h) | h
  · split at h
    · exact ⟨v.toNat / 100, by omega, List.mem_singleton.mp h⟩
    · cases h
  · split at h
    · exact ⟨v.toNat / 10 % 10, by omega, List.mem_singleton.mp h⟩
    · cases h
  · exact ⟨v.toNat % 10, by omega, h⟩

/-- The newline that ends a numeral's line is not in the numeral. -/
theorem newline_not_mem_decimal (v : Byte) : '\n' ∉ decimal v := fun h => by
  obtain ⟨d, hd, e⟩ := exists_digit_of_mem_decimal h
  exact (digitChar_spec d hd).2.2.2.2 e.symm

end Sys2Proof.Machine
end

