-- ==== Sys2Proof/Laws/Step.lean ====
section
/-! SUPPORT. What the fetch gives under an acceptable map, and the three ways a step goes. -/

namespace Sys2Proof.Machine

/-- Under an acceptable map the fetch reads exactly the operand bytes the operation takes, and yields its instruction. -/
theorem fetchInstr_of_lookup {m : OpcodeMap} (hm : m.Acceptable) {s : State} {k : Op}
    (h : m.lookup (s.memRead s.pc) = some k) :
    s.fetchInstr m = some (k.instr (s.memRead (s.pc + 1)) (s.memRead (s.pc + 2))) := by
  have hn : operandCountField (s.memRead s.pc) = k.operandCount := by
    rw [← OpcodeMap.byte_of_lookup h]
    exact hm.operandCountField_byte k
  have hk := k.operandCount_le_two
  obtain h0 | h1 | h2 : k.operandCount = 0 ∨ k.operandCount = 1 ∨ k.operandCount = 2 := by omega
  · simp [State.fetchInstr, State.fetchBytes, State.operandBytes, h, hn, h0, decode_zero h h0]
    exact Op.instr_of_zero h0 _ _ _ _
  · simp [State.fetchInstr, State.fetchBytes, State.operandBytes, h, hn, h1, decode_one h h1]
    exact Op.instr_of_one h1 _ _ _
  · simp [State.fetchInstr, State.fetchBytes, State.operandBytes, h, hn, h2, decode_two h h2]

/-- The first byte a step fetches is the cell at the pc, as memory holds it then (rules R42, R71). -/
theorem fetchBytes_head (m : OpcodeMap) (s : State) : (s.fetchBytes m).head? = some (s.memRead s.pc) := by
  simp only [State.fetchBytes]
  split <;> rfl

theorem fetchInstr_of_unmapped {m : OpcodeMap} {s : State} (h : m.lookup (s.memRead s.pc) = none) : s.fetchInstr m = none := by
  simp [State.fetchInstr, State.fetchBytes, h, decode_unmapped h]

/-- The three bytes from the pc decode to the instruction the step fetches, whatever follows them. -/
theorem fetchInstr_of_decode {m : OpcodeMap} (hm : m.Acceptable) {s : State} {i : Instr} {rest more : List Byte}
    (h : decode m (s.memRead s.pc :: s.memRead (s.pc + 1) :: s.memRead (s.pc + 2) :: more) = .ok (i, rest)) :
    s.fetchInstr m = some i := by
  cases hl : m.lookup (s.memRead s.pc) with
  | none => simp [decode_unmapped hl] at h
  | some k =>
    rw [fetchInstr_of_lookup hm hl]
    have hk := k.operandCount_le_two
    obtain h0 | h1 | h2 : k.operandCount = 0 ∨ k.operandCount = 1 ∨ k.operandCount = 2 := by omega
    · rw [decode_zero hl h0] at h
      cases h
      rw [Op.instr_of_zero h0]
    · rw [decode_one hl h1] at h
      cases h
      rw [Op.instr_of_one h1]
    · rw [decode_two hl h2] at h
      cases h
      rfl

theorem stepWith_halted {m : OpcodeMap} {s : State} (h : s.run = .halted) : stepWith m s = haltedStep s := by
  simp [stepWith, h]

theorem stepWith_unmapped {m : OpcodeMap} {s : State} (hr : s.run = .running) (h : s.fetchInstr m = none) :
    stepWith m s = unmappedStep s := by
  simp [stepWith, hr, h]

theorem stepWith_fetched {m : OpcodeMap} {s : State} {i : Instr} (hr : s.run = .running) (h : s.fetchInstr m = some i) :
    stepWith m s = exec i s := by
  simp [stepWith, hr, h]

/-- The ways a step goes that answers a next state: it changes nothing (halted, or no instruction at the pc), or it runs the
instruction fetched. -/
theorem stepWith_cases {m : OpcodeMap} {s t : State} (h : stepWith m s = .next t) :
    (t = s ∧ (s.run = .halted ∨ s.fetchInstr m = none)) ∨
    ∃ i, s.run = .running ∧ s.fetchInstr m = some i ∧ exec i s = .next t := by
  cases hr : s.run with
  | halted =>
    rw [stepWith_halted hr] at h
    cases h
    exact .inl ⟨rfl, .inl rfl⟩
  | running =>
    cases hf : s.fetchInstr m with
    | none =>
      rw [stepWith_unmapped hr hf] at h
      cases h
      exact .inl ⟨rfl, .inr rfl⟩
    | some i => exact .inr ⟨i, rfl, rfl, by rwa [stepWith_fetched hr hf] at h⟩

/-- A well-formed instruction's register bytes name registers. -/
theorem wellFormed_iff (i : Instr) : i.wellFormed = true ↔ ∀ op ∈ i.regBytes, ∃ r, op = regByte r := by
  simp [Instr.wellFormed, validRegByte_iff]

/-- To prove something of every well-formed instruction, prove it of each form with registers for its register bytes. -/
theorem wellFormed_induction {P : Instr → Prop}
    (add : ∀ a b : RegIdx, P (.add (regByte a) (regByte b)))
    (mul : ∀ a b : RegIdx, P (.mul (regByte a) (regByte b)))
    (cmp : ∀ a b : RegIdx, P (.cmp (regByte a) (regByte b)))
    (and : ∀ a b : RegIdx, P (.and (regByte a) (regByte b)))
    (or : ∀ a b : RegIdx, P (.or (regByte a) (regByte b)))
    (xor : ∀ a b : RegIdx, P (.xor (regByte a) (regByte b)))
    (shl : ∀ a b : RegIdx, P (.shl (regByte a) (regByte b)))
    (shr : ∀ a b : RegIdx, P (.shr (regByte a) (regByte b)))
    (mod : ∀ a b : RegIdx, P (.mod (regByte a) (regByte b)))
    (ldi : ∀ (a : RegIdx) (imm8 : Byte), P (.ldi (regByte a) imm8))
    (not : ∀ a : RegIdx, P (.not (regByte a)))
    (prn : ∀ a : RegIdx, P (.prn (regByte a)))
    (push : ∀ a : RegIdx, P (.push (regByte a)))
    (pop : ∀ a : RegIdx, P (.pop (regByte a)))
    (call : ∀ a : RegIdx, P (.call (regByte a)))
    (jmp : ∀ a : RegIdx, P (.jmp (regByte a)))
    (jeq : ∀ a : RegIdx, P (.jeq (regByte a)))
    (jne : ∀ a : RegIdx, P (.jne (regByte a)))
    (ret : P .ret) (hlt : P .hlt) (i : Instr) (h : i.wellFormed = true) : P i := by
  have h := (wellFormed_iff i).mp h
  cases i with
  | add x y =>
    obtain ⟨a, rfl⟩ := h x (by simp [Instr.regBytes])
    obtain ⟨b, rfl⟩ := h y (by simp [Instr.regBytes])
    exact add a b
  | mul x y =>
    obtain ⟨a, rfl⟩ := h x (by simp [Instr.regBytes])
    obtain ⟨b, rfl⟩ := h y (by simp [Instr.regBytes])
    exact mul a b
  | cmp x y =>
    obtain ⟨a, rfl⟩ := h x (by simp [Instr.regBytes])
    obtain ⟨b, rfl⟩ := h y (by simp [Instr.regBytes])
    exact cmp a b
  | and x y =>
    obtain ⟨a, rfl⟩ := h x (by simp [Instr.regBytes])
    obtain ⟨b, rfl⟩ := h y (by simp [Instr.regBytes])
    exact and a b
  | or x y =>
    obtain ⟨a, rfl⟩ := h x (by simp [Instr.regBytes])
    obtain ⟨b, rfl⟩ := h y (by simp [Instr.regBytes])
    exact or a b
  | xor x y =>
    obtain ⟨a, rfl⟩ := h x (by simp [Instr.regBytes])
    obtain ⟨b, rfl⟩ := h y (by simp [Instr.regBytes])
    exact xor a b
  | shl x y =>
    obtain ⟨a, rfl⟩ := h x (by simp [Instr.regBytes])
    obtain ⟨b, rfl⟩ := h y (by simp [Instr.regBytes])
    exact shl a b
  | shr x y =>
    obtain ⟨a, rfl⟩ := h x (by simp [Instr.regBytes])
    obtain ⟨b, rfl⟩ := h y (by simp [Instr.regBytes])
    exact shr a b
  | mod x y =>
    obtain ⟨a, rfl⟩ := h x (by simp [Instr.regBytes])
    obtain ⟨b, rfl⟩ := h y (by simp [Instr.regBytes])
    exact mod a b
  | ldi x imm8 =>
    obtain ⟨a, rfl⟩ := h x (by simp [Instr.regBytes])
    exact ldi a imm8
  | not x =>
    obtain ⟨a, rfl⟩ := h x (by simp [Instr.regBytes])
    exact not a
  | prn x =>
    obtain ⟨a, rfl⟩ := h x (by simp [Instr.regBytes])
    exact prn a
  | push x =>
    obtain ⟨a, rfl⟩ := h x (by simp [Instr.regBytes])
    exact push a
  | pop x =>
    obtain ⟨a, rfl⟩ := h x (by simp [Instr.regBytes])
    exact pop a
  | call x =>
    obtain ⟨a, rfl⟩ := h x (by simp [Instr.regBytes])
    exact call a
  | jmp x =>
    obtain ⟨a, rfl⟩ := h x (by simp [Instr.regBytes])
    exact jmp a
  | jeq x =>
    obtain ⟨a, rfl⟩ := h x (by simp [Instr.regBytes])
    exact jeq a
  | jne x =>
    obtain ⟨a, rfl⟩ := h x (by simp [Instr.regBytes])
    exact jne a
  | ret => exact ret
  | hlt => exact hlt

end Sys2Proof.Machine
end

