-- ==== Sys2Proof/Tests/Slice0.lean ====
section
/-! SUPPORT. The model's own tests: decoding of words written out from the spec's encodings, the well-formedness smoke test, one
step of each instruction from the vectors of spec/95_test_vectors.md (named in each comment), and for each statement with
hypotheses a concrete case that meets them. -/

namespace Sys2Proof.Tests

open Sys2Proof.Machine

/-! ## Helpers -/

/-- A RUNNING state with a pc, a flag, some registers and some cells; the rest as at reset. -/
def prep (pc : Byte) (e : Bool) (regs : List (RegIdx × Byte)) (cells : List (Byte × Byte)) : State :=
  let s := { State.reset with pc := pc, E := e }
  let s := regs.foldl (fun s r => s.writeReg r.1 r.2) s
  cells.foldl (fun s c => s.memWrite c.1 c.2) s

/-- The state an outcome answers. -/
def after (r : Result) : State :=
  match r with
  | .next t => t
  | .fault _ => State.reset
  | .refused _ => State.reset

/-- The state after one step of the machine. -/
def stepped (s : State) : State := after (step s)

/-- Whether an outcome is a next state. -/
def isNext (r : Result) : Bool :=
  match r with
  | .next _ => true
  | .fault _ => false
  | .refused _ => false

/-! ## Well-formedness: each register position of each form refuses 8, and the immediate is not checked (rules R53, R54) -/

theorem test_illformed_refused :
    [Instr.add 8 0, .add 0 8, .mul 8 0, .mul 0 8, .cmp 8 0, .cmp 0 8, .and 8 0, .and 0 8, .or 8 0, .or 0 8, .xor 8 0, .xor 0 8,
      .not 8, .shl 8 0, .shl 0 8, .shr 8 0, .shr 0 255, .mod 9 1, .mod 0 8, .ldi 8 1, .prn 8, .push 8, .pop 128, .call 8,
      .jmp 8, .jeq 9, .jne 255].all (fun i => !i.wellFormed) = true := by decide

theorem test_wellformed_accepted :
    [Instr.add 7 0, .mul 0 7, .cmp 7 7, .not 7, .ldi 7 255, .prn 7, .push 7, .pop 7, .call 7, .ret, .jmp 7, .jeq 7, .jne 0,
      .hlt].all Instr.wellFormed = true := by decide

/-! ## Decoding: words written out from 30_encoding.md rules R51 and R56 -/

theorem test_decode_add : decode defaultOpcodeMap [0b10100000, 0b00000001, 0b00000010] = .ok (.add 1 2, []) := by decide
theorem test_decode_mul : decode defaultOpcodeMap [0b10100010, 0b00000011, 0b00000100] = .ok (.mul 3 4, []) := by decide
theorem test_decode_cmp : decode defaultOpcodeMap [0b10100111, 0b00000101, 0b00000110] = .ok (.cmp 5 6, []) := by decide
theorem test_decode_and : decode defaultOpcodeMap [0b10101000, 0b00000111, 0b00000000] = .ok (.and 7 0, []) := by decide
theorem test_decode_or : decode defaultOpcodeMap [0b10101010, 0b00000001, 0b00000111] = .ok (.or 1 7, []) := by decide
theorem test_decode_xor : decode defaultOpcodeMap [0b10101011, 0b00000101, 0b00000101] = .ok (.xor 5 5, []) := by decide
theorem test_decode_not : decode defaultOpcodeMap [0b01101001, 0b00000010] = .ok (.not 2, []) := by decide
theorem test_decode_shl : decode defaultOpcodeMap [0b10101100, 0b00000000, 0b00000001] = .ok (.shl 0 1, []) := by decide
theorem test_decode_shr : decode defaultOpcodeMap [0b10101101, 0b00000110, 0b00000011] = .ok (.shr 6 3, []) := by decide
theorem test_decode_mod : decode defaultOpcodeMap [0b10100100, 0b00001001, 0b00000001] = .ok (.mod 9 1, []) := by decide
theorem test_decode_ldi : decode defaultOpcodeMap [0b10000010, 0b00000010, 0b00001100] = .ok (.ldi 2 12, []) := by decide
theorem test_decode_prn : decode defaultOpcodeMap [0b01000111, 0b00000011] = .ok (.prn 3, []) := by decide
theorem test_decode_push : decode defaultOpcodeMap [0b01000101, 0b00000011] = .ok (.push 3, []) := by decide
theorem test_decode_pop : decode defaultOpcodeMap [0b01000110, 0b00000111] = .ok (.pop 7, []) := by decide
theorem test_decode_call : decode defaultOpcodeMap [0b01010000, 0b00000001] = .ok (.call 1, []) := by decide
theorem test_decode_ret : decode defaultOpcodeMap [0b00010001] = .ok (.ret, []) := by decide
theorem test_decode_jmp : decode defaultOpcodeMap [0b01010100, 0b00000011] = .ok (.jmp 3, []) := by decide
theorem test_decode_jeq : decode defaultOpcodeMap [0b01010101, 0b00000010] = .ok (.jeq 2, []) := by decide
theorem test_decode_jne : decode defaultOpcodeMap [0b01010110, 0b00001000] = .ok (.jne 8, []) := by decide
theorem test_decode_hlt : decode defaultOpcodeMap [0b00000001] = .ok (.hlt, []) := by decide

/-- Rules R58, R59 and vector F3: 0x00, 0xFF and 0xA1 are unmapped; a cut instruction is named as such. -/
theorem test_decode_rejects :
    decode defaultOpcodeMap [0x00, 0x00, 0x00] = .error (.unmappedOpcode 0x00) ∧
    decode defaultOpcodeMap [0xFF] = .error (.unmappedOpcode 0xFF) ∧
    decode defaultOpcodeMap [0xA1, 0x00, 0x01] = .error (.unmappedOpcode 0xA1) ∧
    decode defaultOpcodeMap [0xA0, 0x00] = .error (.truncated 0xA0) ∧ decode defaultOpcodeMap [] = .error .noBytes := by decide

/-- The opcode table's words, operands zero, decode, and are what the first step after reset runs. -/
theorem test_table_words :
    [(24, 0xA0), (24, 0xA2), (24, 0xA7), (24, 0xA8), (24, 0xAA), (24, 0xAB), (16, 0x69), (24, 0xAC), (24, 0xAD), (24, 0xA4),
      (24, 0x82), (16, 0x47), (16, 0x45), (16, 0x46), (16, 0x50), (8, 0x11), (16, 0x54), (16, 0x55), (16, 0x56), (8, 0x01)].map
        (fun r => decodeTableWord r.1 r.2) =
      [some (.add 0 0), some (.mul 0 0), some (.cmp 0 0), some (.and 0 0), some (.or 0 0), some (.xor 0 0), some (.not 0),
        some (.shl 0 0), some (.shr 0 0), some (.mod 0 0), some (.ldi 0 0), some (.prn 0), some (.push 0), some (.pop 0),
        some (.call 0), some .ret, some (.jmp 0), some (.jeq 0), some (.jne 0), some .hlt] := by decide

theorem test_table_word_runs :
    stepped (State.reset.withFetchWord 24 0x0A0182) = after (exec (.ldi 1 10) (State.reset.withFetchWord 24 0x0A0182)) ∧
    (stepped (State.reset.withFetchWord 24 0x0A0182)).readReg 1 = 10 := by decide

/-! ## One step of each instruction -/

/-- Vector A1. -/
theorem test_add_wraps :
    let t := stepped (prep 0 true [(0, 200), (1, 100)] [(0, 0xA0), (1, 0), (2, 1)])
    t.readReg 0 = 44 ∧ t.readReg 1 = 100 ∧ t.E = true ∧ t.pc = 3 := by decide

/-- Vector A3. -/
theorem test_add_same_register :
    let t := stepped (prep 0 false [(2, 128)] [(0, 0xA0), (1, 2), (2, 2)])
    t.readReg 2 = 0 := by decide

/-- Vector A7. -/
theorem test_mul_low_byte :
    let t := stepped (prep 0 false [(0, 255), (1, 255)] [(0, 0xA2), (1, 0), (2, 1)])
    t.readReg 0 = 1 := by decide

/-- Vector A8. -/
theorem test_mul_square :
    let t := stepped (prep 0 false [(3, 20)] [(0, 0xA2), (1, 3), (2, 3)])
    t.readReg 3 = 144 := by decide

/-- Vector A9. -/
theorem test_cmp_equal :
    let t := stepped (prep 0 false [(0, 5), (1, 5)] [(0, 0xA7), (1, 0), (2, 1)])
    t.E = true ∧ t.readReg 0 = 5 ∧ t.pc = 3 := by decide

/-- Vector A10. -/
theorem test_cmp_unequal_clears :
    let t := stepped (prep 0 true [(0, 5), (1, 6)] [(0, 0xA7), (1, 0), (2, 1)])
    t.E = false := by decide

/-- Vector A12. -/
theorem test_and_bits :
    let t := stepped (prep 0 false [(0, 0xCC), (1, 0xAA)] [(0, 0xA8), (1, 0), (2, 1)])
    t.readReg 0 = 0x88 ∧ t.pc = 3 := by decide

/-- Vector A13. -/
theorem test_or_bits :
    let t := stepped (prep 0 false [(0, 0xCC), (1, 0xAA)] [(0, 0xAA), (1, 0), (2, 1)])
    t.readReg 0 = 0xEE ∧ t.pc = 3 := by decide

/-- Vector A14. -/
theorem test_xor_bits :
    let t := stepped (prep 0 false [(0, 0xCC), (1, 0xAA)] [(0, 0xAB), (1, 0), (2, 1)])
    t.readReg 0 = 0x66 ∧ t.pc = 3 := by decide

/-- Vector A15. -/
theorem test_xor_self :
    let t := stepped (prep 0 false [(5, 0x77)] [(0, 0xAB), (1, 5), (2, 5)])
    t.readReg 5 = 0 := by decide

/-- Vector A16. -/
theorem test_not_bits :
    let t := stepped (prep 0 false [(2, 0x0F)] [(0, 0x69), (1, 2)])
    t.readReg 2 = 0xF0 ∧ t.pc = 2 := by decide

/-- Vector A18. -/
theorem test_shl_drops_top_bit :
    let t := stepped (prep 0 false [(0, 0x81), (1, 1)] [(0, 0xAC), (1, 0), (2, 1)])
    t.readReg 0 = 0x02 ∧ t.pc = 3 := by decide

/-- Vector A22. -/
theorem test_shl_amount_not_masked :
    let t := stepped (prep 0 false [(0, 0xFF), (1, 32)] [(0, 0xAC), (1, 0), (2, 1)])
    t.readReg 0 = 0 := by decide

/-- Vector A25. -/
theorem test_shr_is_logical :
    let t := stepped (prep 0 false [(0, 0x80), (1, 7)] [(0, 0xAD), (1, 0), (2, 1)])
    t.readReg 0 = 1 ∧ t.pc = 3 := by decide

/-- Vector A27. -/
theorem test_shr_by_255 :
    let t := stepped (prep 0 false [(0, 0xFF), (1, 255)] [(0, 0xAD), (1, 0), (2, 1)])
    t.readReg 0 = 0 := by decide

/-- Vector A28. -/
theorem test_mod_remainder :
    let t := stepped (prep 0 false [(0, 17), (1, 5)] [(0, 0xA4), (1, 0), (2, 1)])
    t.readReg 0 = 2 ∧ t.fault = .none ∧ t.pc = 3 := by decide

/-- Vector A33. -/
theorem test_mod_by_zero :
    let t := stepped (prep 0x10 false [(0, 9)] [(0x10, 0xA4), (0x11, 0), (0x12, 1)])
    t.readReg 0 = 9 ∧ t.pc = 0x13 ∧ t.run = .halted ∧ t.fault = .divZero := by decide

/-- Vector F4. -/
theorem test_ldi_wraps_at_the_top :
    let t := stepped (prep 0xFD false [] [(0xFD, 0x82), (0xFE, 1), (0xFF, 0x2A)])
    t.readReg 1 = 0x2A ∧ t.pc = 0 := by decide

/-- Vector L3. -/
theorem test_ldi_immediate_not_checked :
    let t := stepped (prep 0 false [] [(0, 0x82), (1, 1), (2, 0xFF)])
    t.readReg 1 = 255 ∧ t.fault = .none := by decide

/-- Vector L7. -/
theorem test_prn_emits :
    let t := stepped (prep 0 false [] [(0, 0x47), (1, 7)])
    t.out = [244] ∧ t.pc = 2 := by decide

/-- Vector L9. -/
theorem test_push_wraps :
    let t := stepped (prep 0 false [(7, 0), (0, 9)] [(0, 0x45), (1, 0)])
    t.readReg 7 = 255 ∧ t.memRead 255 = 9 ∧ t.pc = 2 := by decide

/-- Vector L10. -/
theorem test_push_r7 :
    let t := stepped (prep 0 false [] [(0, 0x45), (1, 7)])
    t.readReg 7 = 0xF3 ∧ t.memRead 0xF3 = 0xF3 := by decide

/-- Vector L12. -/
theorem test_pop_wraps :
    let t := stepped (prep 0 false [(7, 255)] [(0, 0x46), (1, 0), (255, 7)])
    t.readReg 0 = 7 ∧ t.readReg 7 = 0 ∧ t.memRead 255 = 7 := by decide

/-- Vector L13. -/
theorem test_pop_r7 :
    let t := stepped (prep 0 false [(7, 0xF3)] [(0, 0x46), (1, 7), (0xF3, 0x20)])
    t.readReg 7 = 0x21 := by decide

/-- Vector K2. -/
theorem test_call_at_the_top :
    let t := stepped (prep 0xFF false [(1, 0x40)] [(0xFF, 0x50), (0, 1)])
    t.memRead 0xF3 = 0x01 ∧ t.pc = 0x40 ∧ t.readReg 7 = 0xF3 := by decide

/-- Vector K3. -/
theorem test_call_r7 :
    let t := stepped (prep 0x10 false [] [(0x10, 0x50), (0x11, 7)])
    t.pc = 0xF3 ∧ t.memRead 0xF3 = 0x12 := by decide

/-- Vector K4. -/
theorem test_ret_pops :
    let t := stepped (prep 0 false [(7, 0xF3)] [(0, 0x11), (0xF3, 0x08)])
    t.pc = 0x08 ∧ t.readReg 7 = 0xF4 := by decide

/-- Vector K6. -/
theorem test_jmp_redirects :
    let t := stepped (prep 0 false [(3, 0x0C)] [(0, 0x54), (1, 3)])
    t.pc = 0x0C := by decide

/-- Vector K8. -/
theorem test_jeq_taken :
    let t := stepped (prep 0x10 true [(2, 0x20)] [(0x10, 0x55), (0x11, 2)])
    t.pc = 0x20 ∧ t.E = true := by decide

/-- Vector K12. -/
theorem test_jeq_invalid_although_not_taken :
    let t := stepped (prep 0x10 false [] [(0x10, 0x55), (0x11, 9)])
    t.pc = 0x10 ∧ t.run = .halted ∧ t.fault = .badReg := by decide

/-- Vector K10. -/
theorem test_jne_not_taken :
    let t := stepped (prep 0x10 true [(2, 0x20)] [(0x10, 0x56), (0x11, 2)])
    t.pc = 0x12 := by decide

/-- Vector K11. -/
theorem test_jne_taken :
    let t := stepped (prep 0x10 false [(2, 0x20)] [(0x10, 0x56), (0x11, 2)])
    t.pc = 0x20 := by decide

/-- Vector K14. -/
theorem test_hlt_wraps :
    let t := stepped (prep 0xFF false [] [(0xFF, 0x01)])
    t.run = .halted ∧ t.pc = 0 ∧ t.fault = .none := by decide

/-- Vector A35: a bad second operand; nothing but the latch and the run state changes. -/
theorem test_invalid_register_effect :
    stepped (prep 0x10 true [(0, 3)] [(0x10, 0xA0), (0x11, 0), (0x12, 8)]) =
      { prep 0x10 true [(0, 3)] [(0x10, 0xA0), (0x11, 0), (0x12, 8)] with run := .halted, fault := .badReg } := by decide

/-- Vector A36: `InvalidRegister` comes before `DivideByZero`. -/
theorem test_invalid_register_first :
    (stepped (prep 0 false [] [(0, 0xA4), (1, 9), (2, 1)])).fault = .badReg := by decide

/-- Vectors F1, F2: the unmapped opcode's step changes nothing. -/
theorem test_unmapped_spins : stepped (prep 3 true [] [(3, 0xFF)]) = prep 3 true [] [(3, 0xFF)] ∧
    stepped State.reset = State.reset := by decide

/-- Vector F6: HALTED is frozen. -/
theorem test_halted_frozen :
    stepped { prep 0 false [] [(0, 0x82), (1, 1), (2, 9)] with run := .halted } =
      { prep 0 false [] [(0, 0x82), (1, 1), (2, 9)] with run := .halted } := by decide

/-- Program P1's text form (spec/95_test_vectors.md) with a comment line and trailing text: the loader's bytes. -/
theorem test_program_text :
    parseProgram [['#', ' ', 'L', 'D', 'I'], ['1', '0', '0', '0', '0', '0', '1', '0', ' ', '#', 'x'], [],
      ['0', '0', '0', '0', '0', '0', '0', '0'], ['0', '0', '0', '0', '1', '0', '0', '0']] = [0x82, 0x00, 0x08] := by decide

/-- Rule R22: 0, 72 and 255 as the console shows them. -/
theorem test_render : renderOut [0, 72, 255] = ['0', '\n', '7', '2', '\n', '2', '5', '5', '\n'] := by decide

/-- Rule R156: the endings the host tells apart. -/
theorem test_endings :
    (stepped (prep 0 false [] [(0, 0x01)])).ending = .normal ∧
    (stepped (prep 0 false [] [(0, 0xA4), (1, 0), (2, 1)])).ending = .divisionByZero ∧
    (stepped (prep 0 false [] [(0, 0x47), (1, 8)])).ending = .invalidRegister ∧
    (stepped State.reset).ending = .stillRunning := by decide

/-! ## The hypotheses of the statements are met

`regByte r` is the byte of register `r`; `after (exec i s)` is the next state of the case. A statement about the status in every
state has its cases in `test_endings`. -/

/-- A state on a `PUSH R0` whose store lands at the next opcode byte, as in program P8. -/
def pushOnNext : State := prep 6 false [(7, 9), (0, 1)] [(6, 0x45), (7, 0)]

/-- A state on a `MOD` whose divisor is 0. -/
def modZero : State := prep 0 false [(0, 9)] [(0, 0xA4), (1, 0), (2, 1)]

/-- `DecodeOfEncodeIsTheInstruction`, `UnmappedOpcodesNumber236`: a map is acceptable. -/
theorem witness_AcceptableMap : defaultOpcodeMap.Acceptable := by decide

theorem witness_EncodeOfDecodeIsTheBytes :
    decode defaultOpcodeMap [0x82, 7, 255, 1] = .ok (.ldi 7 255, [1]) := by decide

/-- Both ends of the range. -/
theorem witness_OperandCountThreeIsUnmapped :
    defaultOpcodeMap.Acceptable ∧ 0xC0 ≤ (0xC0 : Byte).toNat ∧ 0xC0 ≤ (0xFF : Byte).toNat ∧
    (prep 255 false [] [(255, 0xC0)]).run = .running ∧ (prep 255 false [] [(255, 0xC0)]).memRead 255 = 0xC0 ∧
    (prep 0 false [] [(0, 0xFF)]).memRead 0 = 0xFF := by decide

/-- At the top of memory, where the operand bytes wrap (vector F5). -/
theorem witness_StepRunsTheDecodedInstruction :
    let s := prep 0xFF false [] [(0xFF, 0xA0), (0, 0), (1, 1)]
    s.run = .running ∧ decode defaultOpcodeMap [s.memRead s.pc, s.memRead (BitVec.ofNat 8 ((s.pc.toNat + 1) % 256)),
      s.memRead (BitVec.ofNat 8 ((s.pc.toNat + 2) % 256))] = .ok (.add 0 1, []) := by decide

theorem witness_UnmappedOpcodeSpinsForever :
    State.reset.run = .running ∧ defaultOpcodeMap.lookup (State.reset.memRead State.reset.pc) = none := by decide

theorem witness_HaltedCoreNeverChanges : (stepped (prep 0 false [] [(0, 0x01)])).run = .halted := by decide

/-- A one-byte and a three-byte word. -/
theorem witness_PlacedWordIsTheNextInstruction :
    decodeTableWord 8 0x01 = some .hlt ∧ decodeTableWord 24 0xFF0782 = some (.ldi 7 255) := by decide

/-- A step that stores, from and to a state of the invariant. -/
theorem witness_EveryStepKeepsTheInvariant :
    pushOnNext.Inv ∧ step pushOnNext = .next (stepped pushOnNext) := ⟨by decide, rfl⟩

/-- The length 256, at the edge, of a list of any bytes, and the empty image. -/
theorem witness_LaunchMeetsTheInvariant :
    (List.replicate 256 (1 : Byte)).length ≤ 256 ∧ isNext (launch 0xF4 [0x82, 7, 255]) = true ∧
    isNext (launch 0xF4 []) = true := ⟨Nat.le_of_eq List.length_replicate, rfl, rfl⟩

theorem witness_LatchIsWrittenOnceWithTheHalt :
    step modZero = .next (stepped modZero) ∧ (stepped modZero).fault ≠ modZero.fault := ⟨rfl, by decide⟩

/-- An instruction that is no `CMP`, a `CMP` of equal and of unequal registers, a jump; an invalid `CMP` is none of the two. -/
theorem witness_FlagIsWrittenByCmpAndReadByJumps :
    isNext (exec (.mod 0 1) modZero) = true ∧ isNext (exec (.cmp (regByte 0) (regByte 0)) modZero) = true ∧
    isNext (exec (.cmp (regByte 0) (regByte 7)) modZero) = true ∧ isNext (exec (.cmp 8 0) modZero) = true ∧
    (∀ a b : RegIdx, Instr.cmp 8 0 ≠ .cmp (regByte a) (regByte b)) := by decide

/-- Each of the three halts, a step that does not halt, and a halted core. -/
theorem witness_RunStateChangesOnlyByTheThreeHalts :
    modZero.run = .running ∧ (stepped modZero).run = .halted ∧
    (stepped (prep 0 false [] [(0, 0x01)])).run = .halted ∧ (stepped (prep 0 false [] [(0, 0x47), (1, 8)])).run = .halted ∧
    (stepped pushOnNext).run = .running ∧ isNext (step (stepped modZero)) = true := by decide

/-- Two states that differ in a register `POP R7` does not read. -/
theorem witness_RegisterAccessesAreThoseOfTheTable :
    let s := prep 0 false [(7, 0xF3)] [(0xF3, 0x20)]
    let s' := prep 0 false [(7, 0xF3), (1, 5)] [(0xF3, 0x20)]
    (Instr.pop 7).wellFormed = true ∧ isNext (exec (.pop 7) s) = true ∧ isNext (exec (.pop 7) s') = true ∧
    s' = { s with x := s'.x } ∧ s' ≠ s ∧ ∀ r ∈ regsReadBy (.pop 7) s, s'.readReg r = s.readReg r := by decide

/-- A jump taken and not taken, an invalid register, an unmapped opcode. -/
theorem witness_PcControllerFollowsItsTable :
    (Instr.jeq 7).wellFormed = true ∧ isNext (exec (.jeq 7) (prep 0 true [] [])) = true ∧
    isNext (exec (.jeq 7) (prep 0 false [] [])) = true ∧ (Instr.jeq 8).wellFormed = false ∧
    isNext (exec (.jeq 8) State.reset) = true ∧ defaultOpcodeMap.lookup (State.reset.memRead State.reset.pc) = none ∧
    isNext (step State.reset) = true := by decide

/-- Two states that agree but in run state, latch and output. -/
theorem witness_StatusAndOutputNeverInfluenceTheProgram :
    let s := State.reset
    let s' := { s with run := .halted, fault := .badReg, out := [1] }
    s'.x = s.x ∧ s'.pc = s.pc ∧ s'.E = s.E ∧ s'.mem = s.mem ∧ s' ≠ s := by decide

/-- A printing step and one that prints nothing. -/
theorem witness_OutputGrowsOnlyByPrint :
    isNext (step (prep 0 false [] [(0, 0x47), (1, 7)])) = true ∧ isNext (step modZero) = true := by decide

theorem witness_DataAccessesAreThoseOfTheTable :
    let s := prep 0 false [(7, 0xF3)] [(0xF3, 0x20)]
    let s' := prep 0 false [(7, 0xF3)] [(0xF3, 0x20), (0, 5)]
    (∀ a, Instr.ret ≠ .push a ∧ Instr.ret ≠ .call a) ∧ isNext (exec .ret s) = true ∧ isNext (exec (.push 7) s) = true ∧
    isNext (exec (.call 0) s) = true ∧ isNext (exec .ret s') = true ∧ s' = { s with mem := s'.mem } ∧ s' ≠ s ∧
    s'.memRead s.stackAddr = s.memRead s.stackAddr := by
  refine ⟨fun a => ⟨nofun, nofun⟩, ?_⟩
  decide

theorem witness_EveryEndOfARunIsClassified :
    modZero.Inv ∧ modZero.run = .running ∧ stepWith defaultOpcodeMap modZero = .next (stepped modZero) ∧
    State.reset.spinning defaultOpcodeMap = true := ⟨by decide, rfl, rfl, by decide⟩

/-- The second clauses of the instruction rules and `InvalidRegisterHaltsAndDoesNothingElse`: the least and the greatest reserved
byte, in either operand. -/
theorem witness_ReservedOperands :
    7 < (8 : Byte).toNat ∧ 7 < (255 : Byte).toNat ∧ ¬ 7 < (7 : Byte).toNat ∧ (∃ op ∈ (Instr.add 0 8).regBytes, 7 < op.toNat) ∧
    (∃ op ∈ (Instr.add 255 0).regBytes, 7 < op.toNat) ∧ (1 : Byte) = regByte 1 ∧ modZero.readReg 1 = 0 := by decide

/-- Equal and unequal operands of `CMP`; shift amounts 7 and 8; divisors 0 and not 0; the flag 0 and 1. -/
theorem witness_ClausesOfTheInstructionRules :
    let s := prep 0 true [(0, 7), (1, 8), (2, 7)] []
    s.readReg 0 = s.readReg 2 ∧ s.readReg 0 ≠ s.readReg 1 ∧ ¬ 8 ≤ (s.readReg 0).toNat ∧ 8 ≤ (s.readReg 1).toNat ∧
    s.readReg 3 = 0 ∧ s.readReg 1 ≠ 0 ∧ s.E = true ∧ modZero.E = false ∧ (0 : RegIdx) ≠ spIdx := by decide

/-- The two sequences, run from the reset state. -/
theorem witness_StackIsLastInFirstOut :
    let s := prep 0 false [(0, 1), (1, 2)] []
    let s1 := after (exec (.push (regByte 0)) s)
    let s2 := after (exec (.push (regByte 1)) s1)
    let s3 := after (exec (.pop (regByte 2)) s2)
    exec (.push (regByte 0)) s = .next s1 ∧ exec (.pop (regByte 0)) s1 = .next (after (exec (.pop (regByte 0)) s1)) ∧
    exec (.push (regByte 1)) s1 = .next s2 ∧ exec (.pop (regByte 2)) s2 = .next s3 ∧
    exec (.pop (regByte 3)) s3 = .next (after (exec (.pop (regByte 3)) s3)) := ⟨rfl, rfl, rfl, rfl, rfl⟩

/-- A call, and the return in the state it leaves; `CALL R7` too. -/
theorem witness_RetPopsThePcAndUndoesACall :
    let s := prep 6 false [(1, 9)] []
    let t := after (exec (.call (regByte 1)) s)
    let t7 := after (exec (.call (regByte 7)) s)
    exec (.call (regByte 1)) s = .next t ∧ exec .ret t = .next (after (exec .ret t)) ∧
    exec (.call (regByte 7)) s = .next t7 ∧ exec .ret t7 = .next (after (exec .ret t7)) := ⟨rfl, rfl, rfl, rfl⟩

/-- Vector K7. -/
theorem witness_JumpToItselfLoopsForever :
    let s := prep 0x30 false [(3, 0x30)] [(0x30, 0x54), (0x31, 3)]
    s.run = .running ∧ s.fetchInstr defaultOpcodeMap = some (.jmp (regByte 3)) ∧ s.readReg 3 = s.pc := by decide

theorem witness_OnlyTwoConditionsRaiseAFault :
    (after (exec (.mod 0 1) modZero)).fault ≠ modZero.fault ∧ (after (exec (.prn 8) modZero)).fault ≠ modZero.fault ∧
    isNext (exec (.mod 0 1) modZero) = true ∧ isNext (exec (.prn 8) modZero) = true := by decide

/-- Two writes in either order give the same canonical list. -/
theorem witness_CanonicalMemoriesAreExtensional :
    let m := (Memory.writeAt [] 255 7).writeAt 0 9
    let m' := ((Memory.writeAt [] 0 9).writeAt 3 1).writeAt 255 7 |>.writeAt 3 0
    m.wf = true ∧ m'.wf = true ∧ m ≠ [] ∧ m = m' := by decide

/-- A push of the `HLT` byte onto the next opcode (P8), of an unmapped byte, of R7; a call of R7, and one through another register
to the cell it stores to. -/
theorem witness_NextFetchSeesThePushedByte :
    let zero := pushOnNext.writeReg 0 0
    let r7 := prep 6 false [(7, 9)] [(6, 0x45), (7, 7)]
    let call7 := prep 0x10 false [] [(0x10, 0x50), (0x11, 7)]
    let call1 := prep 0x10 false [(1, 0xF3)] [(0x10, 0x50), (0x11, 1)]
    (pushOnNext.run = .running ∧ pushOnNext.fetchInstr defaultOpcodeMap = some (.push (regByte 0)) ∧
      pushOnNext.decSp.stackAddr = BitVec.ofNat 8 ((pushOnNext.pc.toNat + 2) % 256) ∧
      pushOnNext.readReg 0 = defaultOpcodeMap.hlt) ∧
    (zero.fetchInstr defaultOpcodeMap = some (.push (regByte 0)) ∧
      zero.decSp.stackAddr = BitVec.ofNat 8 ((zero.pc.toNat + 2) % 256) ∧ defaultOpcodeMap.lookup (zero.readReg 0) = none) ∧
    (r7.fetchInstr defaultOpcodeMap = some (.push (regByte spIdx)) ∧
      r7.decSp.stackAddr = BitVec.ofNat 8 ((r7.pc.toNat + 2) % 256)) ∧
    (call7.run = .running ∧ call7.fetchInstr defaultOpcodeMap = some (.call (regByte spIdx))) ∧
    (call1.run = .running ∧ call1.fetchInstr defaultOpcodeMap = some (.call (regByte 1)) ∧
      call1.readReg 1 = call1.decSp.stackAddr) := by decide

/-- Lengths 256 and 257. -/
theorem witness_ImageLengths :
    (List.replicate 256 (1 : Byte)).length ≤ 256 ∧ 256 < (List.replicate 257 (1 : Byte)).length :=
  ⟨Nat.le_of_eq List.length_replicate, Nat.lt_of_lt_of_eq (by decide : 256 < 257) List.length_replicate.symm⟩

/-- A blank line, a line of seven digits, and a comment line of eight characters. -/
theorem witness_ProgramLinesGiveTheirBytes :
    ([] : List Char).length < 8 ∧ ['1', '0', '1', '0', '1', '0', '1'].length < 8 ∧
    ¬ ['1', '0', '1', '0', '#', '0', '1', '1'].length < 8 ∧
    ∃ c ∈ ['1', '0', '1', '0', '#', '0', '1', '1'].take 8, c ≠ '0' ∧ c ≠ '1' :=
  ⟨by decide, by decide, by decide, '#', by decide, by decide⟩

/-- Two ways to come to one output show one text. -/
theorem witness_ConsoleTextIsOneNumeralALine :
    renderOut (State.reset.emit 0).out = renderOut ((prep 0 false [] []).emit 0).out := by decide

end Sys2Proof.Tests
end

section
/-! The flag, the run state and the fault latch (10_state.md rules R17, R18): which instructions use them, and how. -/

namespace Sys2Proof.Machine

/-! ## Invalid register operands -/

theorem withReg_of_invalid {op : Byte} {s : State} {run : RegIdx → Result} (h : [op].all validRegByte = false) :
    withReg op s run = .next s.raiseInvalidRegister := by
  obtain ⟨-, e⟩ | ⟨i, rfl, -⟩ := withReg_cases s op run
  · exact e
  · simp [(validRegByte_iff _).mpr ⟨i, rfl⟩] at h

theorem withRegs_of_invalid {opA opB : Byte} {s : State} {run : RegIdx → RegIdx → Result}
    (h : [opA, opB].all validRegByte = false) : withRegs opA opB s run = .next s.raiseInvalidRegister := by
  obtain ⟨-, e⟩ | ⟨i, j, rfl, rfl, -⟩ := withRegs_cases s opA opB run
  · exact e
  · simp [(validRegByte_iff _).mpr ⟨i, rfl⟩, (validRegByte_iff _).mpr ⟨j, rfl⟩] at h

/-- An instruction with a reserved register byte raises `InvalidRegister` and does nothing else (rules R54, R143). -/
theorem exec_of_invalid {i : Instr} (s : State) (h : i.wellFormed = false) : exec i s = .next s.raiseInvalidRegister := by
  cases i with
  | add | mul | cmp | and | or | xor | shl | shr | mod => exact withRegs_of_invalid h
  | not | ldi | prn | push | pop | call | jmp | jeq | jne => exact withReg_of_invalid h
  | ret | hlt => cases h

/-! ## The status: flag, run state and fault latch -/

/-- `s` with another flag, run state and fault latch. -/
def State.withStatus (s : State) (e : Bool) (r : RunState) (f : FaultLatch) : State := { s with E := e, run := r, fault := f }

@[simp] theorem readReg_withStatus (s : State) (e : Bool) (r : RunState) (f : FaultLatch) (i : RegIdx) :
    (s.withStatus e r f).readReg i = s.readReg i := rfl

/-- At `s`, instruction `i` neither reads nor writes the status: each value of it goes through the step unchanged. -/
def PassesStatus (s : State) (i : Instr) : Prop :=
  ∃ t : State, ∀ e r f, exec i (s.withStatus e r f) = .next (t.withStatus e r f)

/-- An instruction passes the status through if its effect `F` commutes with setting it. -/
theorem PassesStatus.of_commutes {i : Instr} {F : State → State} {s : State} (hF : ∀ u, exec i u = .next (F u))
    (hc : ∀ e r f, F (s.withStatus e r f) = (F s).withStatus e r f) : PassesStatus s i :=
  ⟨F s, fun e r f => (hF _).trans (congrArg _ (hc e r f))⟩

theorem PassesStatus.exec_setE {i : Instr} {s t : State} (h : PassesStatus s i) (ht : exec i s = .next t) (e : Bool) :
    exec i { s with E := e } = .next { t with E := e } := by
  obtain ⟨u, hu⟩ := h
  cases ht.symm.trans (hu s.E s.run s.fault)
  exact hu e s.run s.fault

theorem PassesStatus.exec_setRun {i : Instr} {s t : State} (h : PassesStatus s i) (ht : exec i s = .next t) (r : RunState) :
    exec i { s with run := r } = .next { t with run := r } := by
  obtain ⟨u, hu⟩ := h
  cases ht.symm.trans (hu s.E s.run s.fault)
  exact hu s.E r s.fault

theorem PassesStatus.status_eq {i : Instr} {s t : State} (h : PassesStatus s i) (ht : exec i s = .next t) :
    t.E = s.E ∧ t.run = s.run ∧ t.fault = s.fault := by
  obtain ⟨u, hu⟩ := h
  cases ht.symm.trans (hu s.E s.run s.fault)
  exact ⟨rfl, rfl, rfl⟩

/-- The ways an instruction may use the status in state `s`. -/
inductive StatusUse (s : State) : Instr → Prop where
  | invalid {i : Instr} (h : i.wellFormed = false) : StatusUse s i
  | passes {i : Instr} (h : PassesStatus s i) : StatusUse s i
  | cmp (a b : RegIdx) : StatusUse s (.cmp (regByte a) (regByte b))
  | modZero (a b : RegIdx) (h : s.readReg b = 0) : StatusUse s (.mod (regByte a) (regByte b))
  | jeq (a : RegIdx) : StatusUse s (.jeq (regByte a))
  | jne (a : RegIdx) : StatusUse s (.jne (regByte a))
  | hlt : StatusUse s .hlt

theorem passesStatus_mod {a b : RegIdx} {s : State} (h : s.readReg b ≠ 0) :
    PassesStatus s (.mod (regByte a) (regByte b)) :=
  ⟨(s.writeReg a (aluMod (s.readReg a) (s.readReg b))).advance 3, fun e r f => by
    rw [exec_mod, readReg_withStatus, if_neg h]
    rfl⟩

theorem exec_modZero {b : RegIdx} {s : State} (a : RegIdx) (h : s.readReg b = 0) :
    exec (.mod (regByte a) (regByte b)) s = .next s.raiseDivideByZero := by
  rw [exec_mod, if_pos h]

/-- Every instruction but a comparison, a conditional jump and the three halts passes the status through. -/
theorem statusUse (s : State) (i : Instr) : StatusUse s i := by
  cases hw : i.wellFormed with
  | false => exact .invalid hw
  | true =>
    refine wellFormed_induction (P := StatusUse s) ?add ?mul .cmp ?and ?or ?xor ?shl ?shr ?mod ?ldi ?not ?prn ?push ?pop
      ?call ?jmp .jeq .jne ?ret .hlt i hw
    case add => exact fun a b => .passes (.of_commutes (exec_add a b) fun _ _ _ => rfl)
    case mul => exact fun a b => .passes (.of_commutes (exec_mul a b) fun _ _ _ => rfl)
    case and => exact fun a b => .passes (.of_commutes (exec_and a b) fun _ _ _ => rfl)
    case or => exact fun a b => .passes (.of_commutes (exec_or a b) fun _ _ _ => rfl)
    case xor => exact fun a b => .passes (.of_commutes (exec_xor a b) fun _ _ _ => rfl)
    case shl => exact fun a b => .passes (.of_commutes (exec_shl a b) fun _ _ _ => rfl)
    case shr => exact fun a b => .passes (.of_commutes (exec_shr a b) fun _ _ _ => rfl)
    case ldi => exact fun a v => .passes (.of_commutes (exec_ldi a v) fun _ _ _ => rfl)
    case not => exact fun a => .passes (.of_commutes (exec_not a) fun _ _ _ => rfl)
    case prn => exact fun a => .passes (.of_commutes (exec_prn a) fun _ _ _ => rfl)
    case push => exact fun a => .passes (.of_commutes (exec_push a) fun _ _ _ => rfl)
    case pop => exact fun a => .passes (.of_commutes (exec_pop a) fun _ _ _ => rfl)
    case call => exact fun a => .passes (.of_commutes (exec_call a) fun _ _ _ => rfl)
    case jmp => exact fun a => .passes (.of_commutes (exec_jmp a) fun _ _ _ => rfl)
    case ret => exact .passes (.of_commutes exec_ret fun _ _ _ => rfl)
    case mod =>
      intro a b
      by_cases h : s.readReg b = 0
      · exact .modZero a b h
      · exact .passes (passesStatus_mod h)

/-! ## Rule R17: the flag -/

/-- Only a comparison of two registers writes the flag. -/
theorem exec_E_of_ne_cmp {i : Instr} {s t : State} (hi : ∀ a b : RegIdx, i ≠ .cmp (regByte a) (regByte b))
    (h : exec i s = .next t) : t.E = s.E := by
  cases statusUse s i with
  | invalid hw => cases (exec_of_invalid s hw).symm.trans h; rfl
  | passes hp => exact (hp.status_eq h).1
  | cmp a b => exact absurd rfl (hi a b)
  | modZero a b h0 => cases (exec_modZero a h0).symm.trans h; rfl
  | jeq a => cases (exec_jeq a s).symm.trans h; split <;> rfl
  | jne a => cases (exec_jne a s).symm.trans h; split <;> rfl
  | hlt => cases h; rfl

theorem exec_cmp_E_iff {a b : RegIdx} {s t : State} (h : exec (.cmp (regByte a) (regByte b)) s = .next t) :
    t.E = true ↔ s.readReg a = s.readReg b := by
  cases (exec_cmp a b s).symm.trans h
  simp [equalFlag]

/-- Only a conditional jump reads the flag: what any other instruction does but to the flag is the same for each value of it. -/
theorem exec_setE_of_ne_jump {i : Instr} {s t : State} (e : Bool) (hi : ∀ a, i ≠ .jeq a ∧ i ≠ .jne a)
    (h : exec i s = .next t) : ∃ e', exec i { s with E := e } = .next { t with E := e' } := by
  cases statusUse s i with
  | invalid hw =>
    cases (exec_of_invalid s hw).symm.trans h
    exact ⟨e, exec_of_invalid _ hw⟩
  | passes hp => exact ⟨e, hp.exec_setE h e⟩
  | cmp a b =>
    cases (exec_cmp a b s).symm.trans h
    exact ⟨equalFlag (s.readReg a) (s.readReg b), exec_cmp a b _⟩
  | modZero a b h0 =>
    cases (exec_modZero a h0).symm.trans h
    exact ⟨e, exec_modZero a h0⟩
  | jeq a => exact absurd rfl (hi _).1
  | jne a => exact absurd rfl (hi _).2
  | hlt => cases h; exact ⟨e, rfl⟩

/-- Settles O16, from the ways an instruction uses the status. -/
theorem flagIsWrittenByCmpAndReadByJumps : Obligations.FlagIsWrittenByCmpAndReadByJumps :=
  ⟨fun _ _ _ => exec_E_of_ne_cmp, fun _ _ _ _ => exec_cmp_E_iff, fun _ _ _ e => exec_setE_of_ne_jump e, fun _ => rfl⟩

/-! ## Rule R18: the run state -/

/-- The three halts in state `s`: `HLT`, an invalid register index, a `MOD` whose divisor is 0. -/
def HaltsIn (s : State) (i : Instr) : Prop :=
  i = .hlt ∨ i.wellFormed = false ∨ ∃ a b : RegIdx, i = .mod (regByte a) (regByte b) ∧ s.readReg b = 0

theorem exec_run_of_haltsIn {i : Instr} {s t : State} (hi : HaltsIn s i) (h : exec i s = .next t) : t.run = .halted := by
  obtain rfl | hw | ⟨a, b, rfl, h0⟩ := hi
  · cases h; rfl
  · cases (exec_of_invalid s hw).symm.trans h; rfl
  · cases (exec_modZero a h0).symm.trans h; rfl

/-- What is not one of the three halts keeps the run state and does the same for each value of it. -/
theorem exec_setRun_of_not_haltsIn {i : Instr} {s t : State} (hi : ¬ HaltsIn s i) (h : exec i s = .next t) :
    t.run = s.run ∧ ∀ r, exec i { s with run := r } = .next { t with run := r } := by
  cases statusUse s i with
  | invalid hw => exact absurd (.inr (.inl hw)) hi
  | passes hp => exact ⟨(hp.status_eq h).2.1, hp.exec_setRun h⟩
  | cmp a b =>
    cases (exec_cmp a b s).symm.trans h
    exact ⟨rfl, fun _ => exec_cmp a b _⟩
  | modZero a b h0 => exact absurd (.inr (.inr ⟨a, b, rfl, h0⟩)) hi
  | jeq a =>
    cases (exec_jeq a s).symm.trans h
    refine ⟨by split <;> rfl, fun r => (exec_jeq a _).trans ?_⟩
    cases hE : s.E <;> simp [hE] <;> rfl
  | jne a =>
    cases (exec_jne a s).symm.trans h
    refine ⟨by split <;> rfl, fun r => (exec_jne a _).trans ?_⟩
    cases hE : s.E <;> simp [hE] <;> rfl
  | hlt => exact absurd (.inl rfl) hi

/-- A halt does the same whatever the run state was. -/
theorem exec_setRun_of_haltsIn {i : Instr} {s t : State} (hi : HaltsIn s i) (h : exec i s = .next t) (r : RunState) :
    exec i { s with run := r } = .next t := by
  obtain rfl | hw | ⟨a, b, rfl, h0⟩ := hi
  · exact h
  · cases (exec_of_invalid s hw).symm.trans h
    exact exec_of_invalid _ hw
  · cases (exec_modZero a h0).symm.trans h
    exact exec_modZero a h0

theorem exec_run_eq_halted_iff {i : Instr} {s t : State} (hr : s.run = .running) (h : exec i s = .next t) :
    t.run = .halted ↔ HaltsIn s i := by
  refine ⟨fun ht => ?_, fun hi => exec_run_of_haltsIn hi h⟩
  by_contra hi
  cases ht.symm.trans ((exec_setRun_of_not_haltsIn hi h).1.trans hr)

/-- A step of a RUNNING core halts exactly on fetching one of the three halts. -/
theorem stepWith_run_eq_halted_iff {m : OpcodeMap} {s t : State} (hr : s.run = .running) (h : stepWith m s = .next t) :
    t.run = .halted ↔ ∃ i, s.fetchInstr m = some i ∧ HaltsIn s i := by
  obtain ⟨rfl, hh | hf⟩ | ⟨i, -, hf, he⟩ := stepWith_cases h
  · cases hr.symm.trans hh
  · simp [hr, hf]
  · simp [hf, exec_run_eq_halted_iff hr he]

theorem stepWith_eq_of_halted {m : OpcodeMap} {s t : State} (hr : s.run = .halted) (h : stepWith m s = .next t) : t = s := by
  cases (stepWith_halted hr).symm.trans h
  rfl

theorem exec_setRun {i : Instr} {s t : State} (r : RunState) (hr : s.run = .running) (h : exec i s = .next t) :
    exec i { s with run := r } = .next (if t.run = .halted then t else { t with run := r }) := by
  split
  next ht => exact exec_setRun_of_haltsIn ((exec_run_eq_halted_iff hr h).mp ht) h r
  next ht => exact (exec_setRun_of_not_haltsIn (fun hi => ht (exec_run_of_haltsIn hi h)) h).2 r

/-- Settles O17, from the three halts and the ways an instruction uses the status. -/
theorem runStateChangesOnlyByTheThreeHalts : Obligations.RunStateChangesOnlyByTheThreeHalts :=
  ⟨fun _ _ _ => stepWith_run_eq_halted_iff, fun _ _ _ => stepWith_eq_of_halted, fun _ _ => rfl, fun _ _ _ => exec_setRun⟩

end Sys2Proof.Machine
end

section
/-! Register accesses (10_state.md rule R13): each well-formed instruction against its row of the table. -/

namespace Sys2Proof.Machine

/-- `s` with other registers. -/
def State.setRegs (s : State) (x : Vector Byte 8) : State := { s with x := x }

@[simp] theorem memRead_setRegs (s : State) (x : Vector Byte 8) (c : Byte) : (s.setRegs x).memRead c = s.memRead c := rfl
@[simp] theorem setRegs_pc (s : State) (x : Vector Byte 8) : (s.setRegs x).pc = s.pc := rfl
@[simp] theorem setRegs_E (s : State) (x : Vector Byte 8) : (s.setRegs x).E = s.E := rfl

/-- `t` and `t'` agree in the registers `rs` and in every component but the registers. -/
def AgreeOn (rs : List RegIdx) (t t' : State) : Prop := (∀ r ∈ rs, t'.readReg r = t.readReg r) ∧ t' = t.setRegs t'.x

/-- `i` keeps to its row of the table: its effect `F` changes no register but those written, and other values of the registers
that are not read change nothing of what it does. -/
def KeepsToRow (i : Instr) : Prop :=
  ∃ F : State → State, (∀ s, exec i s = .next (F s)) ∧ ∀ s, SameRegsBut (regsWrittenBy i s) s (F s) ∧
    ∀ x, (∀ r ∈ regsReadBy i s, (s.setRegs x).readReg r = s.readReg r) →
      regsWrittenBy i (s.setRegs x) = regsWrittenBy i s ∧ AgreeOn (regsWrittenBy i s) (F s) (F (s.setRegs x))

/-! ## The rows that write no register -/

theorem keepsToRow_of_no_write {i : Instr} {F : State → State} (hF : ∀ s, exec i s = .next (F s))
    (hw : ∀ s, regsWrittenBy i s = []) (hx : ∀ s, (F s).x = s.x)
    (hr : ∀ s x, (∀ r ∈ regsReadBy i s, (s.setRegs x).readReg r = s.readReg r) → F (s.setRegs x) = (F s).setRegs x) :
    KeepsToRow i := by
  refine ⟨F, hF, fun s => ⟨fun r _ => by simp [State.readReg, hx], fun x h => ⟨by simp [hw], by simp [hw], ?_⟩⟩⟩
  rw [hx]
  exact hr s x h

theorem keepsToRow_cmp (a b : RegIdx) : KeepsToRow (.cmp (regByte a) (regByte b)) :=
  keepsToRow_of_no_write (exec_cmp a b) (fun _ => rfl) (fun _ => rfl) fun s x h => by
    rw [h a (by simp [regsReadBy]), h b (by simp [regsReadBy])]
    rfl

theorem keepsToRow_prn (a : RegIdx) : KeepsToRow (.prn (regByte a)) :=
  keepsToRow_of_no_write (exec_prn a) (fun _ => rfl) (fun _ => rfl) fun s x h => by
    rw [h a (by simp [regsReadBy])]
    rfl

theorem keepsToRow_jmp (a : RegIdx) : KeepsToRow (.jmp (regByte a)) :=
  keepsToRow_of_no_write (exec_jmp a) (fun _ => rfl) (fun _ => rfl) fun s x h => by
    rw [h a (by simp [regsReadBy])]
    rfl

theorem keepsToRow_jeq (a : RegIdx) : KeepsToRow (.jeq (regByte a)) :=
  keepsToRow_of_no_write (exec_jeq a) (fun _ => rfl) (fun s => by split <;> rfl) fun s x h => by
    cases hE : s.E with
    | false =>
      rw [setRegs_E, hE]
      rfl
    | true =>
      rw [h a (by simp [regsReadBy, hE]), setRegs_E, hE]
      rfl

theorem keepsToRow_jne (a : RegIdx) : KeepsToRow (.jne (regByte a)) :=
  keepsToRow_of_no_write (exec_jne a) (fun _ => rfl) (fun s => by split <;> rfl) fun s x h => by
    cases hE : s.E with
    | true =>
      rw [setRegs_E, hE]
      rfl
    | false =>
      rw [h a (by simp [regsReadBy, hE]), setRegs_E, hE]
      rfl

theorem keepsToRow_hlt : KeepsToRow .hlt :=
  keepsToRow_of_no_write exec_hlt (fun _ => rfl) (fun _ => rfl) fun _ _ _ => rfl

/-! ## The rows that write one register -/

theorem readReg_of_x_eq_set {s t : State} {a : RegIdx} {v : Byte} (h : t.x = s.x.set a v) (r : RegIdx) :
    t.readReg r = if r = a then v else s.readReg r :=
  (congrArg (fun x : Vector Byte 8 => x[r]) h).trans (readReg_writeReg s a r v)

/-- A row with the one register `a` written: its value `v` and the rest of the effect are fixed by the registers read. -/
theorem keepsToRow_of_write {i : Instr} {F : State → State} {a : RegIdx} {v : State → Byte}
    (hF : ∀ s, exec i s = .next (F s)) (hw : ∀ s, regsWrittenBy i s = [a]) (hx : ∀ s, (F s).x = s.x.set a (v s))
    (hr : ∀ s x, (∀ r ∈ regsReadBy i s, (s.setRegs x).readReg r = s.readReg r) →
      v (s.setRegs x) = v s ∧ F (s.setRegs x) = (F s).setRegs (F (s.setRegs x)).x) :
    KeepsToRow i := by
  refine ⟨F, hF, fun s => ⟨fun r hr => ?_, fun x h => ⟨by rw [hw, hw], ?_⟩⟩⟩
  · rw [readReg_of_x_eq_set (hx s), if_neg (List.ne_of_not_mem_cons (hw s ▸ hr))]
  · obtain ⟨hv, hrest⟩ := hr s x h
    exact ⟨by simp [hw, readReg_of_x_eq_set (hx _), hv], hrest⟩

theorem keepsToRow_of_alu {i : Instr} {a b : RegIdx} {op : Byte → Byte → Byte}
    (hF : ∀ s, exec i s = .next ((s.writeReg a (op (s.readReg a) (s.readReg b))).advance 3))
    (hw : ∀ s, regsWrittenBy i s = [a]) (hr : ∀ s, regsReadBy i s = [a, b]) : KeepsToRow i :=
  keepsToRow_of_write hF hw (fun _ => rfl) fun s x h => by
    rw [h a (by simp [hr]), h b (by simp [hr])]
    exact ⟨rfl, rfl⟩

theorem keepsToRow_not (a : RegIdx) : KeepsToRow (.not (regByte a)) :=
  keepsToRow_of_write (exec_not a) (by simp [regsWrittenBy]) (fun _ => rfl) fun s x h => by
    rw [h a (by simp [regsReadBy])]
    exact ⟨rfl, rfl⟩

theorem keepsToRow_ldi (a : RegIdx) (v : Byte) : KeepsToRow (.ldi (regByte a) v) :=
  keepsToRow_of_write (v := fun _ => v) (exec_ldi a v) (by simp [regsWrittenBy]) (fun _ => rfl) fun _ _ _ => ⟨rfl, rfl⟩

theorem keepsToRow_push (a : RegIdx) : KeepsToRow (.push (regByte a)) :=
  keepsToRow_of_write (exec_push a) (fun _ => rfl) (fun _ => rfl) fun s x h => by
    have hsp := h spIdx (by simp [regsReadBy])
    have ha := h a (by simp [regsReadBy])
    simp only [decSp_eq, stackAddr_eq, readReg_writeReg, hsp, ha]
    exact ⟨trivial, rfl⟩

theorem keepsToRow_call (a : RegIdx) : KeepsToRow (.call (regByte a)) :=
  keepsToRow_of_write (exec_call a) (fun _ => rfl) (fun _ => rfl) fun s x h => by
    have hsp := h spIdx (by simp [regsReadBy])
    have ha := h a (by simp [regsReadBy])
    simp only [decSp_eq, stackAddr_eq, readReg_writeReg, hsp, ha]
    exact ⟨trivial, rfl⟩

theorem keepsToRow_ret : KeepsToRow .ret :=
  keepsToRow_of_write exec_ret (fun _ => rfl) (fun _ => rfl) fun s x h => by
    have hsp := h spIdx (by simp [regsReadBy])
    simp only [incSp_eq, stackAddr_eq, readReg_redirect, hsp, memRead_setRegs]
    exact ⟨trivial, rfl⟩

/-! ## `POP`, which writes two registers, and `MOD`, which writes one or none -/

theorem keepsToRow_pop (a : RegIdx) : KeepsToRow (.pop (regByte a)) := by
  refine ⟨_, exec_pop a, fun s => ⟨fun r hr => ?_, fun x h => ⟨by simp [regsWrittenBy], ?_⟩⟩⟩
  · obtain ⟨ha, hsp⟩ : r ≠ a ∧ r ≠ spIdx := by simpa [regsWrittenBy] using hr
    simp [ha, hsp]
  · have hsp := h spIdx (by simp [regsReadBy])
    simp only [incSp_eq, stackAddr_eq, readReg_writeReg, hsp, memRead_setRegs]
    exact ⟨by simp [regsWrittenBy], rfl⟩

theorem regsWrittenBy_mod (a b : RegIdx) (s : State) :
    regsWrittenBy (.mod (regByte a) (regByte b)) s = if s.readReg b = 0 then [] else [a] := by
  simp [regsWrittenBy]

/-- Whether `MOD` writes is decided by its divisor, which is a register read. -/
theorem keepsToRow_mod (a b : RegIdx) : KeepsToRow (.mod (regByte a) (regByte b)) := by
  refine ⟨_, fun s => (exec_mod a b s).trans (apply_ite Host.Outcome.next _ _ _).symm, fun s => ?_⟩
  simp only [regsWrittenBy_mod]
  refine ⟨fun r hr => ?_, fun x h => ?_⟩
  · split
    next => rfl
    next h0 =>
      rw [if_neg h0] at hr
      simp [List.ne_of_not_mem_cons hr]
  · rw [h a (by simp [regsReadBy]), h b (by simp [regsReadBy])]
    split
    next => exact ⟨rfl, by simp, rfl⟩
    next => exact ⟨rfl, by simp, rfl⟩

/-! ## The whole table -/

theorem keepsToRow_of_wellFormed (i : Instr) (h : i.wellFormed = true) : KeepsToRow i := by
  refine wellFormed_induction ?add ?mul keepsToRow_cmp ?and ?or ?xor ?shl ?shr keepsToRow_mod keepsToRow_ldi keepsToRow_not
    keepsToRow_prn keepsToRow_push keepsToRow_pop keepsToRow_call keepsToRow_jmp keepsToRow_jeq keepsToRow_jne keepsToRow_ret
    keepsToRow_hlt i h
  case add => exact fun a b => keepsToRow_of_alu (exec_add a b) (by simp [regsWrittenBy]) (by simp [regsReadBy])
  case mul => exact fun a b => keepsToRow_of_alu (exec_mul a b) (by simp [regsWrittenBy]) (by simp [regsReadBy])
  case and => exact fun a b => keepsToRow_of_alu (exec_and a b) (by simp [regsWrittenBy]) (by simp [regsReadBy])
  case or => exact fun a b => keepsToRow_of_alu (exec_or a b) (by simp [regsWrittenBy]) (by simp [regsReadBy])
  case xor => exact fun a b => keepsToRow_of_alu (exec_xor a b) (by simp [regsWrittenBy]) (by simp [regsReadBy])
  case shl => exact fun a b => keepsToRow_of_alu (exec_shl a b) (by simp [regsWrittenBy]) (by simp [regsReadBy])
  case shr => exact fun a b => keepsToRow_of_alu (exec_shr a b) (by simp [regsWrittenBy]) (by simp [regsReadBy])

/-- Settles O18, row by row. -/
theorem registerAccessesAreThoseOfTheTable : Obligations.RegisterAccessesAreThoseOfTheTable := by
  intro i s t s' t' hi ht
  obtain ⟨F, hF, hrow⟩ := keepsToRow_of_wellFormed i hi
  obtain ⟨hframe, hagree⟩ := hrow s
  cases (hF s).symm.trans ht
  refine ⟨hframe, fun ht' hs' hreads => ?_⟩
  obtain ⟨x, rfl⟩ : ∃ x, s' = s.setRegs x := ⟨s'.x, hs'⟩
  cases (hF _).symm.trans ht'
  exact hagree x hreads

end Sys2Proof.Machine
end

section
/-! The constraints on an opcode map (30_encoding.md rules R57, R59): distinct bytes, and bits 7:6 the operand count. -/

namespace Sys2Proof

theorem Op.nodup_all : Op.all.Nodup := by decide

/-! ## The operations of each operand count (rule R56, column `n`) -/

theorem Op.operandCount_eq_zero_iff (k : Op) : k.operandCount = 0 ↔ k ∈ [Op.hlt, .ret] := by cases k <;> decide

theorem Op.operandCount_eq_one_iff (k : Op) :
    k.operandCount = 1 ↔ k ∈ [Op.not, .prn, .push, .pop, .call, .jmp, .jeq, .jne] := by cases k <;> decide

theorem Op.operandCount_eq_two_iff (k : Op) :
    k.operandCount = 2 ↔ k ∈ [Op.add, .mul, .mod, .cmp, .and, .or, .xor, .shl, .shr, .ldi] := by cases k <;> decide

/-! ## Rule R57: the two constraints -/

theorem extractLsb_eq_iff (opcode : Byte) (n : BitVec 2) :
    opcode.extractLsb 7 6 = n ↔ operandCountField opcode = n.toNat := BitVec.toNat_inj.symm

theorem OpcodeMap.nodup_bytes_iff (m : OpcodeMap) :
    (Op.all.map m.byte).Nodup ↔ ∀ k l : Op, m.byte k = m.byte l → k = l := by
  simp [List.nodup_map_iff_inj_on Op.nodup_all, Op.mem_all]

/-- The second constraint, one operand count after the other: there is none above 2. -/
theorem OpcodeMap.operandCountFields_iff (m : OpcodeMap) :
    (∀ k ∈ Op.all, operandCountField (m.byte k) = k.operandCount) ↔
      (∀ k : Op, k.operandCount = 0 → (m.byte k).extractLsb 7 6 = 0b00#2) ∧
      (∀ k : Op, k.operandCount = 1 → (m.byte k).extractLsb 7 6 = 0b01#2) ∧
      (∀ k : Op, k.operandCount = 2 → (m.byte k).extractLsb 7 6 = 0b10#2) := by
  simp only [extractLsb_eq_iff]
  constructor
  · intro h
    have field (k : Op) {n : Nat} (hk : k.operandCount = n) : operandCountField (m.byte k) = n := (h k k.mem_all).trans hk
    exact ⟨fun k => field k, fun k => field k, fun k => field k⟩
  · intro ⟨h0, h1, h2⟩ k _
    obtain hk | hk | hk : k.operandCount = 0 ∨ k.operandCount = 1 ∨ k.operandCount = 2 := by
      have := k.operandCount_le_two
      omega
    · exact (h0 k hk).trans hk.symm
    · exact (h1 k hk).trans hk.symm
    · exact (h2 k hk).trans hk.symm

/-- Settles O3, each of the two constraints by itself. -/
theorem acceptableMapsMeetBothConstraints : Obligations.AcceptableMapsMeetBothConstraints := by
  refine ⟨fun m => ?_, by decide⟩
  simp only [← Op.operandCount_eq_zero_iff, ← Op.operandCount_eq_one_iff, ← Op.operandCount_eq_two_iff]
  exact and_congr m.nodup_bytes_iff m.operandCountFields_iff

/-! ## Rule R59: bits 7:6 = 0b11 -/

/-- No operation has three operands, so no byte of an acceptable map has 3 in its count field. -/
theorem OpcodeMap.Acceptable.byte_lt {m : OpcodeMap} (h : m.Acceptable) (k : Op) : (m.byte k).toNat < 0xC0 := by
  have hcount : (m.byte k).toNat / 64 = k.operandCount := (operandCountField_eq _).symm.trans (h.operandCountField_byte k)
  have hle := k.operandCount_le_two
  omega

theorem OpcodeMap.Acceptable.lookup_eq_none {m : OpcodeMap} (h : m.Acceptable) {opcode : Byte} (hop : 0xC0 ≤ opcode.toNat) :
    m.lookup opcode = none :=
  OpcodeMap.lookup_eq_none_iff.mpr fun k hk => absurd (hk ▸ h.byte_lt k) (Nat.not_lt.mpr hop)

end Sys2Proof

namespace Sys2Proof.Machine

/-- An unmapped opcode fetches no operand byte (rule R72). -/
theorem fetchBytes_of_unmapped {m : OpcodeMap} {s : State} (h : m.lookup (s.memRead s.pc) = none) :
    s.fetchBytes m = [s.memRead s.pc] := by
  simp [State.fetchBytes, h]

/-- Settles O5: such an opcode is unmapped, and an unmapped opcode's step is `unmappedStep`. -/
theorem operandCountThreeIsUnmapped : Obligations.OperandCountThreeIsUnmapped := by
  intro m hm opcode hop
  have hnone := hm.lookup_eq_none hop
  refine ⟨hnone, ?_⟩
  rintro s hrun rfl
  exact ⟨fetchBytes_of_unmapped hnone, stepWith_unmapped hrun (fetchInstr_of_unmapped hnone)⟩

end Sys2Proof.Machine
end

section
/-! Runs that stay where they are: a step that answers the state it starts from (40_fetch_decode_execute.md rule R78). -/

namespace Sys2Proof.Machine

@[simp] theorem runWith_zero (m : OpcodeMap) (s : State) : runWith m 0 s = .next s := rfl

theorem runWith_succ_of_next {m : OpcodeMap} {s t : State} (h : stepWith m s = .next t) (k : Nat) :
    runWith m (k + 1) s = runWith m k t := by
  simp [runWith, h]

/-- A fixed point of the step is one of every run. -/
theorem runWith_of_stepWith_self {m : OpcodeMap} {s : State} (h : stepWith m s = .next s) (k : Nat) :
    runWith m k s = .next s := by
  induction k with
  | zero => exact runWith_zero m s
  | succ k ih => exact (runWith_succ_of_next h k).trans ih

/-- Settles O8: an unmapped opcode fetches no instruction, so the state is a fixed point of the step. -/
theorem unmappedOpcodeSpinsForever : Obligations.UnmappedOpcodeSpinsForever := by
  intro m s hrun hnone
  have hstep : stepWith m s = .next s := stepWith_unmapped hrun (fetchInstr_of_unmapped hnone)
  exact ⟨hstep, runWith_of_stepWith_self hstep⟩

end Sys2Proof.Machine
end

section
/-! The ALU instructions (41_alu.md rules R90 to R97): the result, the frame, and a reserved operand byte. -/

namespace Sys2Proof.Machine

/-! ## Reserved operand bytes (rule R54) -/

theorem validRegByte_eq_false_iff (op : Byte) : validRegByte op = false ↔ 7 < op.toNat := by simp [validRegByte]

/-- A byte above 7 among the register-index operands raises `InvalidRegister`, whichever operand it is (rules R54, R143). -/
theorem exec_of_reserved {i : Instr} (s : State) (h : ∃ op ∈ i.regBytes, 7 < op.toNat) :
    exec i s = .next s.raiseInvalidRegister := by
  obtain ⟨op, hmem, hop⟩ := h
  exact exec_of_invalid s (List.all_eq_false.mpr ⟨op, hmem, by simp [(validRegByte_eq_false_iff op).mpr hop]⟩)

/-- Format R and RI: the one register-index byte is reserved. -/
theorem exec_of_reserved_one {i : Instr} {opA : Byte} (s : State) (hi : i.regBytes = [opA]) (h : 7 < opA.toNat) :
    exec i s = .next s.raiseInvalidRegister :=
  exec_of_reserved s (by simpa [hi] using h)

/-- Format RR: either register-index byte is reserved. -/
theorem exec_of_reserved_two {i : Instr} {opA opB : Byte} (s : State) (hi : i.regBytes = [opA, opB])
    (h : 7 < opA.toNat ∨ 7 < opB.toNat) : exec i s = .next s.raiseInvalidRegister :=
  exec_of_reserved s (by simpa [hi] using h)

/-! ## The frame (rule R90) -/

theorem pcAdvanced_advance {s t : State} (h : t.pc = s.pc) (n : Nat) : PcAdvanced n s (t.advance n) :=
  congrArg (fun pc : Byte => (pc.toNat + n) % 256) h

/-- Writing `x[a]` and advancing the pc changes nothing else. -/
theorem onlyRegChanged_writeReg_advance (a : RegIdx) (v : Byte) (n : Nat) (s : State) :
    OnlyRegChanged a n s ((s.writeReg a v).advance n) := by
  refine ⟨fun r hr => ?_, fun _ _ => rfl, ⟨rfl, rfl, rfl, rfl⟩, pcAdvanced_advance rfl n⟩
  simp [List.ne_of_not_mem_cons hr]

/-- An instruction that writes `v` to `x[a]` and advances the pc has that frame, and `x[a]` then reads as `v`. -/
theorem exists_onlyRegChanged {i : Instr} {a : RegIdx} {v : Byte} {n : Nat} {s : State}
    (h : exec i s = .next ((s.writeReg a v).advance n)) :
    ∃ t, exec i s = .next t ∧ OnlyRegChanged a n s t ∧ t.readReg a = v :=
  ⟨_, h, onlyRegChanged_writeReg_advance a v n s, by simp⟩

/-! ## The results bit by bit -/

theorem aluAnd_getElem (u v : Byte) (k : Fin 8) : (aluAnd u v)[k] = (u[k] && v[k]) := BitVec.getElem_and k.isLt

theorem aluOr_getElem (u v : Byte) (k : Fin 8) : (aluOr u v)[k] = (u[k] || v[k]) := BitVec.getElem_or k.isLt

theorem aluXor_getElem_iff (u v : Byte) (k : Fin 8) : (aluXor u v)[k] = true ↔ u[k] ≠ v[k] := by
  have hbit : (aluXor u v)[k] = (u[k] ^^ v[k]) := BitVec.getElem_xor k.isLt
  simp [hbit]

/-- 255 minus a byte is its complement. -/
theorem aluNot_eq_not (u : Byte) : aluNot u = ~~~u := by
  apply BitVec.eq_of_toNat_eq
  rw [aluNot_toNat, BitVec.toNat_not]

theorem aluNot_getElem (u : Byte) (k : Fin 8) : (aluNot u)[k] = !u[k] := by
  rw [aluNot_eq_not]
  exact BitVec.getElem_not k.isLt

/-! ## The instructions -/

/-- Settles O27, each of the three operations by its bits. -/
theorem andOrXorActBitByBit : Obligations.AndOrXorActBitByBit := by
  refine ⟨fun a b s => ⟨⟨rfl, ?_⟩, ⟨rfl, ?_⟩, ⟨rfl, ?_⟩⟩, fun opA opB s h =>
    ⟨exec_of_reserved_two s rfl h, exec_of_reserved_two s rfl h, exec_of_reserved_two s rfl h⟩⟩
  · obtain ⟨t, ht, hframe, hval⟩ := exists_onlyRegChanged (exec_and a b s)
    exact ⟨t, ht, hframe, hval ▸ aluAnd_getElem _ _⟩
  · obtain ⟨t, ht, hframe, hval⟩ := exists_onlyRegChanged (exec_or a b s)
    exact ⟨t, ht, hframe, hval ▸ aluOr_getElem _ _⟩
  · obtain ⟨t, ht, hframe, hval⟩ := exists_onlyRegChanged (exec_xor a b s)
    exact ⟨t, ht, hframe, hval ▸ aluXor_getElem_iff _ _⟩

/-- Settles O24: the result is `aluAdd`, the sum modulo 256. -/
theorem addIsTheSumModulo256 : Obligations.AddIsTheSumModulo256 := by
  refine ⟨fun a b s => ⟨rfl, ?_⟩, fun _ _ s => exec_of_reserved_two s rfl⟩
  obtain ⟨t, ht, hframe, hval⟩ := exists_onlyRegChanged (exec_add a b s)
  exact ⟨t, ht, hframe, hval ▸ aluAdd_toNat _ _⟩

/-- Settles O25: the result is `aluMul`, the product modulo 256. -/
theorem mulIsTheLowByteOfTheProduct : Obligations.MulIsTheLowByteOfTheProduct := by
  refine ⟨fun a b s => ⟨rfl, ?_⟩, fun _ _ s => exec_of_reserved_two s rfl⟩
  obtain ⟨t, ht, hframe, hval⟩ := exists_onlyRegChanged (exec_mul a b s)
  exact ⟨t, ht, hframe, hval ▸ aluMul_toNat _ _⟩

/-- Settles O26: the flag becomes `equalFlag` of the two registers, whatever it was. -/
theorem cmpSetsAndClearsTheFlag : Obligations.CmpSetsAndClearsTheFlag := by
  refine ⟨fun a b s => ⟨rfl, _, exec_cmp a b s, fun heq => ?_, fun hne => ?_, fun _ _ => rfl, fun _ _ => rfl, rfl, rfl, rfl,
    pcAdvanced_advance rfl 3⟩, fun _ _ s => exec_of_reserved_two s rfl⟩
  · simp [equalFlag, heq]
  · simp [equalFlag, hne]

/-- Settles O28: the result is `aluNot`, as a number and bit by bit. -/
theorem notInvertsEveryBit : Obligations.NotInvertsEveryBit := by
  refine ⟨fun a s => ⟨rfl, ?_⟩, fun _ s => exec_of_reserved_one s rfl⟩
  obtain ⟨t, ht, hframe, hval⟩ := exists_onlyRegChanged (exec_not a s)
  exact ⟨t, ht, hframe, hval ▸ aluNot_toNat _, hval ▸ aluNot_getElem _⟩

end Sys2Proof.Machine
end

section
/-! The load-immediate instruction (42_load_print_stack.md rule R110): its one register-index byte is `opA`. -/

namespace Sys2Proof.Machine

/-- Settles O31: whatever the immediate byte is, it is the value written, and only `opA` can be reserved (rule R55). -/
theorem ldiCopiesTheImmediate : Obligations.LdiCopiesTheImmediate :=
  ⟨fun a imm8 s => ⟨rfl, exists_onlyRegChanged (exec_ldi a imm8 s)⟩, fun _ _ s => exec_of_reserved_one s rfl⟩

end Sys2Proof.Machine
end

section
/-! Return and jumps (43_control.md rules R122 to R125): where the pc goes, the frame, and a reserved operand byte. -/

namespace Sys2Proof.Machine

/-! ## A call and a return (rules R121, R122) -/

theorem readReg_sp_of_call {a : RegIdx} {s t : State} (h : exec (.call (regByte a)) s = .next t) :
    t.readReg spIdx = s.readReg spIdx - 1 := by
  cases (exec_call a s).symm.trans h
  simp

/-- The call leaves the return address on top of the stack. -/
theorem memRead_sp_of_call {a : RegIdx} {s t : State} (h : exec (.call (regByte a)) s = .next t) :
    t.memRead (t.readReg spIdx) = (s.advance 2).pc := by
  cases (exec_call a s).symm.trans h
  simp

theorem pc_of_ret {s t : State} (h : exec .ret s = .next t) : t.pc = s.memRead (s.readReg spIdx) := by
  cases (exec_ret s).symm.trans h
  rfl

theorem readReg_sp_of_ret {s t : State} (h : exec .ret s = .next t) : t.readReg spIdx = s.readReg spIdx + 1 := by
  cases (exec_ret s).symm.trans h
  simp

theorem sameRegsBut_sp_ret {s t : State} (h : exec .ret s = .next t) : SameRegsBut [spIdx] s t := by
  cases (exec_ret s).symm.trans h
  intro r hr
  simp [List.ne_of_not_mem_cons hr]

/-- Settles O37: the return pops the cell that the call pushed, and its increment undoes the call's decrement. -/
theorem retPopsThePcAndUndoesACall : Obligations.RetPopsThePcAndUndoesACall := by
  refine ⟨⟨rfl, fun s => ⟨_, exec_ret s, pc_of_ret (exec_ret s), congrArg BitVec.toNat (readReg_sp_of_ret (exec_ret s)),
    sameRegsBut_sp_ret (exec_ret s), fun _ _ => rfl, rfl, rfl, rfl, rfl⟩⟩, ?_⟩
  intro a s t u v hcall hsp hcell hret
  have hpc : v.pc = (s.advance 2).pc := by
    rw [pc_of_ret hret, hsp, hcell, memRead_sp_of_call hcall]
  have hspv : v.readReg spIdx = s.readReg spIdx := by
    rw [readReg_sp_of_ret hret, hsp, readReg_sp_of_call hcall, BitVec.sub_add_cancel]
  exact ⟨(congrArg BitVec.toNat hpc).trans (pcAdvanced_advance rfl 2), hspv⟩

/-! ## The jumps (rules R123 to R125) -/

/-- Nothing changed but, perhaps, the pc: the frame of a jump. -/
abbrev OnlyPcChanged (s t : State) : Prop := SameRegsBut [] s t ∧ SameMemBut [] s t ∧ SameRest s t

theorem onlyPcChanged_redirect (s : State) (target : Byte) : OnlyPcChanged s (s.redirect target) :=
  ⟨fun _ _ => rfl, fun _ _ => rfl, rfl, rfl, rfl, rfl⟩

theorem onlyPcChanged_advance (s : State) (n : Nat) : OnlyPcChanged s (s.advance n) :=
  ⟨fun _ _ => rfl, fun _ _ => rfl, rfl, rfl, rfl, rfl⟩

/-- A jump that is taken when the flag is `b`. -/
theorem exists_onlyPcChanged_of_flag {i : Instr} {s : State} {target : Byte} (b : Bool)
    (htaken : s.E = b → exec i s = .next (s.redirect target)) (hnot : s.E = !b → exec i s = .next (s.advance 2)) :
    ∃ t, exec i s = .next t ∧ (s.E = b → t.pc = target) ∧ (s.E = !b → PcAdvanced 2 s t) ∧ OnlyPcChanged s t := by
  obtain hE | hE := Bool.eq_or_eq_not s.E b
  · exact ⟨_, htaken hE, fun _ => rfl, fun hE' => absurd (hE.symm.trans hE') (by simp), onlyPcChanged_redirect s target⟩
  · exact ⟨_, hnot hE, fun hE' => absurd (hE'.symm.trans hE) (by simp), fun _ => pcAdvanced_advance rfl 2,
      onlyPcChanged_advance s 2⟩

/-- Settles O38: the flag chooses between the two pc rules, and the operand is checked before the flag is read. -/
theorem jumpsRedirectByTheFlag : Obligations.JumpsRedirectByTheFlag := by
  refine ⟨fun a s => ⟨⟨rfl, _, exec_jmp a s, rfl, onlyPcChanged_redirect s _⟩, ⟨rfl, ?jeq⟩, ⟨rfl, ?jne⟩⟩, fun opA s h =>
    ⟨exec_of_reserved_one s rfl h, exec_of_reserved_one s rfl h, exec_of_reserved_one s rfl h⟩⟩
  case jeq => exact exists_onlyPcChanged_of_flag true (fun hE => by simp [exec_jeq, hE]) (fun hE => by simp [exec_jeq, hE])
  case jne => exact exists_onlyPcChanged_of_flag false (fun hE => by simp [exec_jne, hE]) (fun hE => by simp [exec_jne, hE])

end Sys2Proof.Machine
end

section
/-! Reset and launch (70_reset_and_hazards.md rules R170 to R176): what the registers and the cells read as after each. -/

namespace Sys2Proof.Machine

/-! ## Reset (rule R171) -/

@[simp] theorem readReg_resetWith (sp : Byte) (r : RegIdx) : (State.resetWith sp).readReg r = if r = spIdx then sp else 0 := by
  fin_cases r <;> rfl

@[simp] theorem memRead_resetWith (sp c : Byte) : (State.resetWith sp).memRead c = 0 := rfl

@[simp] theorem hostReset_eq_resetWith (sp : Byte) (s : State) : hostReset sp s = State.resetWith sp := rfl

/-- Settles O46: reset forgets the state it is asserted in, and each component of the reset state is read off. -/
theorem resetRestoresEveryValue : Obligations.ResetRestoresEveryValue := by
  intro sp s
  rw [hostReset_eq_resetWith]
  exact ⟨fun r hr => by simp [hr], by simp, rfl, rfl, rfl, rfl, memRead_resetWith sp, rfl, rfl⟩

/-! ## Launch (rule R176) -/

/-- Loading from cell `k` up leaves the cells below `k`, and from `k` on shows the image where it reaches. -/
theorem Memory.readAt_loadFrom (image : List Byte) (m : Memory) (k a : Nat) :
    (m.loadFrom k image).readAt a = if k ≤ a then (image[a - k]?).getD (m.readAt a) else m.readAt a := by
  induction image generalizing m k with
  | nil => simp [Memory.loadFrom]
  | cons b bs ih =>
    rw [Memory.loadFrom, ih, Memory.readAt_writeAt]
    obtain hlt | rfl | hgt := Nat.lt_trichotomy a k
    · simp [Nat.not_le_of_lt hlt, Nat.not_le_of_lt (Nat.lt_succ_of_lt hlt), Nat.ne_of_lt hlt]
    · simp
    · have hsub : a - k = a - (k + 1) + 1 := by omega
      simp [Nat.succ_le_of_lt hgt, Nat.le_of_lt hgt, Nat.ne_of_gt hgt, hsub]

theorem launch_of_length_le {image : List Byte} (sp : Byte) (h : image.length ≤ 256) :
    launch sp image = .next { State.resetWith sp with mem := Memory.loadFrom [] 0 image } := if_pos h

/-- Settles O47: the launched state is the reset state but for its memory, which is the image loaded into cells that are all 0. -/
theorem launchPlacesTheImageFromZero : Obligations.LaunchPlacesTheImageFromZero := by
  intro sp image hlen
  refine ⟨_, launch_of_length_le sp hlen, fun c => ?_, rfl⟩
  calc Memory.readAt (Memory.loadFrom [] 0 image) c.toNat
      = (image[c.toNat]?).getD 0 := by rw [Memory.readAt_loadFrom]; simp [Memory.unlisted]
    _ = if h : c.toNat < image.length then image[c.toNat] else 0 := List.getD_getElem? ..

end Sys2Proof.Machine
end

section
/-! Decoding and encoding (30_encoding.md rules R50 to R52, R57, R58, R73): the two round trips, and the number of unmapped
opcode values. -/

namespace Sys2Proof

/-! ## Decode after encode -/

/-- The operand bytes of every instruction have its operation's count and rebuild it. -/
theorem operandBytes_statement (i : Instr) : Laws.OperandBytes.Statement i := by cases i <;> exact ⟨rfl, rfl⟩

/-- A mapped opcode takes the operand bytes that its operation has, and leaves the rest. -/
theorem decode_of_lookup {m : OpcodeMap} {opcode : Byte} {k : Op} (h : m.lookup opcode = some k) {operands : List Byte}
    (hlen : operands.length = k.operandCount) (rest : List Byte) :
    decode m (opcode :: (operands ++ rest)) = .ok (k.instr (operands.getD 0 0) (operands.getD 1 0), rest) := by
  match operands, hlen with
  | [], hlen => exact decode_zero h hlen.symm rest
  | [a], hlen => exact decode_one h hlen.symm a rest
  | [a, b], hlen => exact decode_two h hlen.symm a b rest
  | _ :: _ :: _ :: _, hlen =>
    have hle := k.operandCount_le_two
    simp only [List.length_cons] at hlen
    omega

/-- Settles O1: under an acceptable map the opcode byte selects the instruction's operation, which takes its operand bytes. -/
theorem decodeOfEncodeIsTheInstruction : Obligations.DecodeOfEncodeIsTheInstruction := by
  intro m hm i rest
  obtain ⟨hlen, hinstr⟩ := operandBytes_statement i
  have hlookup : m.lookup (m.byte i.op) = some i.op := hm.lookup_eq_some_iff.mpr rfl
  rw [encode, List.cons_append, decode_of_lookup hlookup hlen, hinstr]

/-! ## Encode after decode -/

/-- The encoding of what an operation forms with two bytes keeps the bytes that the operation has. -/
theorem encode_instr (m : OpcodeMap) (k : Op) (a b : Byte) :
    encode m (k.instr a b) = m.byte k :: [a, b].take k.operandCount := by
  cases k <;> rfl

/-- What decodes is an opcode byte, as many operand bytes as its operation has, and the rest. -/
theorem decode_eq_ok {m : OpcodeMap} {bytes rest : List Byte} {i : Instr} (h : decode m bytes = .ok (i, rest)) :
    ∃ (k : Op) (a b : Byte), i = k.instr a b ∧ bytes = m.byte k :: ([a, b].take k.operandCount ++ rest) := by
  unfold decode at h
  split at h
  · cases h
  · split at h
    · cases h
    next opcode _ k hlookup =>
      rw [← OpcodeMap.byte_of_lookup hlookup]
      split at h
      next hk => cases h; exact ⟨k, 0, 0, rfl, by simp [hk]⟩
      next a _ hk => cases h; exact ⟨k, a, 0, rfl, by simp [hk]⟩
      next a b _ hk => cases h; exact ⟨k, a, b, rfl, by simp [hk]⟩
      · cases h

/-- Settles O2, by what the decoder takes from the bytes. -/
theorem encodeOfDecodeIsTheBytes : Obligations.EncodeOfDecodeIsTheBytes := by
  intro m bytes rest i h
  obtain ⟨k, a, b, rfl, rfl⟩ := decode_eq_ok h
  rw [encode_instr, List.cons_append]

/-! ## Rule R58: the number of unmapped bytes -/

/-- The mapped opcode values are the bytes of the 20 operations, each once. -/
theorem mappedValues_perm {m : OpcodeMap} (hm : m.Acceptable) :
    ((List.range 256).filter (fun n => !(m.lookup (BitVec.ofNat 8 n)).isNone)).Perm
      (Op.all.map (fun k => (m.byte k).toNat)) := by
  have hinj : Function.Injective (fun k => (m.byte k).toNat) := fun k l e => hm.byte_injective (BitVec.eq_of_toNat_eq e)
  refine (List.perm_ext_iff_of_nodup (List.nodup_range.filter _) (Op.nodup_all.map hinj)).mpr fun n => ?_
  simp only [List.mem_filter, List.mem_range, List.mem_map, Op.mem_all, true_and, Bool.not_eq_true',
    Option.isNone_eq_false_iff, Option.isSome_iff_exists, hm.lookup_eq_some_iff]
  constructor
  · rintro ⟨hn, k, hk⟩
    exact ⟨k, by rw [hk]; exact Nat.mod_eq_of_lt hn⟩
  · rintro ⟨k, rfl⟩
    exact ⟨(m.byte k).isLt, k, by simp⟩

/-- Settles O6: of the 256 values the 20 distinct bytes of the map are taken away. -/
theorem unmappedOpcodesNumber236 : Obligations.UnmappedOpcodesNumber236 := by
  refine ⟨fun m hm => ?_, by decide⟩
  have hmapped := (mappedValues_perm hm).length_eq
  have hsplit := List.length_eq_length_filter_add (l := List.range 256) (fun n => (m.lookup (BitVec.ofNat 8 n)).isNone)
  rw [List.length_map] at hmapped
  rw [List.length_range, hmapped] at hsplit
  exact Nat.add_right_cancel hsplit.symm

/-- Settles O4, each word by running the encoding table or the decoder on it. -/
theorem specEncodingsDecodeRight : Obligations.SpecEncodingsDecodeRight :=
  ⟨rfl, rfl, rfl, rfl, rfl, rfl, rfl, rfl⟩

end Sys2Proof

namespace Sys2Proof.Machine

/-! ## The bytes that a step decodes (rules R71 to R73) -/

theorem stepWith_of_decode {m : OpcodeMap} (hm : m.Acceptable) {s : State} {i : Instr} {rest : List Byte}
    (hr : s.run = .running)
    (h : decode m [s.memRead s.pc, s.memRead (s.pc + 1), s.memRead (s.pc + 2)] = .ok (i, rest)) :
    stepWith m s = exec i s :=
  stepWith_fetched hr (fetchInstr_of_decode hm h)

/-- An address past the pc, computed on numbers and wrapped, is the sum of bytes. -/
theorem ofNat_add_mod (pc : Byte) (n : Nat) : BitVec.ofNat 8 ((pc.toNat + n) % 256) = pc + BitVec.ofNat 8 n := by
  apply BitVec.eq_of_toNat_eq
  simp

/-- Settles O7: the three bytes at the pc fetch the instruction that they decode to. -/
theorem stepRunsTheDecodedInstruction : Obligations.StepRunsTheDecodedInstruction := by
  refine ⟨fun m hm s i rest hr h => ?_, fun _ => rfl⟩
  rw [ofNat_add_mod, ofNat_add_mod] at h
  exact stepWith_of_decode hm hr h

theorem defaultOpcodeMap_acceptable : defaultOpcodeMap.Acceptable := acceptableMapsMeetBothConstraints.2

@[simp] theorem placeWord_pc (s : State) (nbits w : Nat) : (s.placeWord nbits w).pc = s.pc := rfl

theorem memRead_placeWord (s : State) (nbits w : Nat) (c : Byte) :
    (s.placeWord nbits w).memRead c = if c = s.pc + 2 then tableByte nbits w 2 else if c = s.pc + 1 then tableByte nbits w 1
      else if c = s.pc then tableByte nbits w 0 else s.memRead c := by
  rw [← memRead_memWrite s s.pc, ← memRead_memWrite, ← memRead_memWrite]
  rfl

/-- The three bytes at the pc of a placed word are the word's. -/
theorem placeWord_bytes (s : State) (nbits w : Nat) :
    [(s.placeWord nbits w).memRead s.pc, (s.placeWord nbits w).memRead (s.pc + 1),
      (s.placeWord nbits w).memRead (s.pc + 2)] = tableBytes nbits w := by
  simp [memRead_placeWord, tableBytes]

/-- Settles O11: the bytes placed are the word's, and they decode to the instruction. -/
theorem placedWordIsTheNextInstruction : Obligations.PlacedWordIsTheNextInstruction := by
  intro s nbits w i h
  unfold decodeTableWord at h
  split at h
  next j rest hd =>
    cases h
    rw [← placeWord_bytes s] at hd
    exact stepWith_of_decode defaultOpcodeMap_acceptable rfl hd
  · cases h

end Sys2Proof.Machine
end

section
/-! What every instruction answers, and runs of a core that halted or jumps to itself (40_fetch_decode_execute.md rules R70,
R77). -/

namespace Sys2Proof.Machine

/-! ## Every step answers a next state -/

/-- Every instruction answers a next state. -/
theorem exists_exec_eq_next (i : Instr) (s : State) : ∃ t, exec i s = .next t := by
  cases statusUse s i with
  | invalid hw => exact ⟨_, exec_of_invalid s hw⟩
  | passes hp =>
    obtain ⟨t, ht⟩ := hp
    exact ⟨_, ht s.E s.run s.fault⟩
  | cmp a b => exact ⟨_, exec_cmp a b s⟩
  | modZero a b h0 => exact ⟨_, exec_modZero a h0⟩
  | jeq a => exact ⟨_, exec_jeq a s⟩
  | jne a => exact ⟨_, exec_jne a s⟩
  | hlt => exact ⟨_, exec_hlt s⟩

theorem exists_stepWith_eq_next (m : OpcodeMap) (s : State) : ∃ t, stepWith m s = .next t := by
  cases hr : s.run with
  | halted => exact ⟨s, stepWith_halted hr⟩
  | running =>
    cases hf : s.fetchInstr m with
    | none => exact ⟨s, stepWith_unmapped hr hf⟩
    | some i =>
      rw [stepWith_fetched hr hf]
      exact exists_exec_eq_next i s

/-- Settles O10, from the ways a step goes and the ways an instruction uses the status. -/
theorem everyStepAnswersANextState : Obligations.EveryStepAnswersANextState :=
  ⟨exists_stepWith_eq_next, exists_exec_eq_next⟩

/-! ## Runs that stay where they are -/

theorem runWith_of_halted {s : State} (h : s.run = .halted) (m : OpcodeMap) (k : Nat) : runWith m k s = .next s :=
  runWith_of_stepWith_self (stepWith_halted h) k

/-- Settles O9: a halted state is a fixed point of the step. -/
theorem haltedCoreNeverChanges : Obligations.HaltedCoreNeverChanges := fun m _ h => runWith_of_halted h m

/-- Settles O39: redirecting the pc to itself is no change, so the state is a fixed point of the step. -/
theorem jumpToItselfLoopsForever : Obligations.JumpToItselfLoopsForever := by
  intro m s a hr hf ha
  refine runWith_of_stepWith_self ?_
  rw [stepWith_fetched hr hf, exec_jmp, ha]
  rfl

/-- Settles O40: the halted state that `HLT` leaves is a fixed point of every step. -/
theorem hltHaltsPastItsByte : Obligations.HltHaltsPastItsByte :=
  ⟨rfl, fun s => ⟨_, exec_hlt s, rfl, pcAdvanced_advance rfl 1, rfl, rfl, rfl, fun _ _ => rfl, fun _ _ => rfl,
    runWith_of_halted rfl⟩⟩

end Sys2Proof.Machine
end

section
/-! The fault latch (10_state.md rule R19, 60_exceptions.md rules R141 to R147): what raises a fault, and how a run ends. -/

namespace Sys2Proof.Machine

theorem wellFormed_mod (a b : RegIdx) : (Instr.mod (regByte a) (regByte b)).wellFormed = true :=
  (wellFormed_iff _).mpr (by simp [Instr.regBytes])

/-- Settles O42, from the ways an instruction uses the status. -/
theorem onlyTwoConditionsRaiseAFault : Obligations.OnlyTwoConditionsRaiseAFault := by
  intro i s t h hne
  cases statusUse s i with
  | invalid hw => cases (exec_of_invalid s hw).symm.trans h; exact .inr ⟨rfl, hw⟩
  | passes hp => exact absurd (hp.status_eq h).2.2 hne
  | cmp a b => cases (exec_cmp a b s).symm.trans h; exact absurd rfl hne
  | modZero a b h0 =>
    cases (exec_modZero a h0).symm.trans h
    exact .inl ⟨rfl, wellFormed_mod a b, a, b, rfl, h0⟩
  | jeq a => cases (exec_jeq a s).symm.trans h; exact absurd (by split <;> rfl) hne
  | jne a => cases (exec_jne a s).symm.trans h; exact absurd (by split <;> rfl) hne
  | hlt => cases h; exact absurd rfl hne

/-- An instruction that changes the latch sets it and halts the core. -/
theorem exec_halts_of_fault_ne {i : Instr} {s t : State} (h : exec i s = .next t) (hne : t.fault ≠ s.fault) :
    t.run = .halted ∧ t.fault ≠ .none := by
  obtain ⟨hf, -, a, b, rfl, h0⟩ | ⟨hf, hw⟩ := onlyTwoConditionsRaiseAFault i s t h hne
  · exact ⟨exec_run_of_haltsIn (.inr (.inr ⟨a, b, rfl, h0⟩)) h, by simp [hf]⟩
  · exact ⟨exec_run_of_haltsIn (.inr (.inl hw)) h, by simp [hf]⟩

/-- Settles O15: the step that changes the latch runs an instruction that halts, and a halted core never changes. -/
theorem latchIsWrittenOnceWithTheHalt : Obligations.LatchIsWrittenOnceWithTheHalt := by
  intro m s t h hne
  obtain ⟨rfl, -⟩ | ⟨i, hr, -, he⟩ := stepWith_cases h
  · exact absurd rfl hne
  · obtain ⟨hrun, hfault⟩ := exec_halts_of_fault_ne he hne
    exact ⟨hr, hrun, hfault, runWith_of_halted hrun m⟩

/-- Settles O41: a reserved operand raises `InvalidRegister` before the divisor of a `MOD` is looked at. -/
theorem invalidRegisterHaltsAndDoesNothingElse : Obligations.InvalidRegisterHaltsAndDoesNothingElse :=
  ⟨fun _ s => exec_of_reserved s, fun _ _ _ s hA _ _ => ⟨_, exec_of_reserved_two s rfl (.inl hA), rfl, rfl⟩⟩

/-! ## How a run ends (00_scope.md rule R9) -/

theorem goodEnd_iff (s : State) : s.goodEnd = true ↔ s.run = .halted ∧ s.fault = .none := by
  simp [State.goodEnd]

theorem faulted_iff (s : State) : s.faulted = true ↔ s.run = .halted ∧ s.fault ≠ .none := by
  simp [State.faulted]

/-- A halt that leaves no fault latched is `HLT`. -/
theorem eq_hlt_of_haltsIn {i : Instr} {s t : State} (hi : HaltsIn s i) (h : exec i s = .next t) (hf : t.fault = .none) :
    i = .hlt := by
  obtain rfl | hw | ⟨a, b, rfl, h0⟩ := hi
  · rfl
  · cases (exec_of_invalid s hw).symm.trans h
    cases hf
  · cases (exec_modZero a h0).symm.trans h
    cases hf

/-- A RUNNING core with no fault latched ends its run well exactly by `HLT`. -/
theorem goodEnd_iff_fetchInstr_eq_hlt {m : OpcodeMap} {s t : State} (hr : s.run = .running) (hf : s.fault = .none)
    (h : stepWith m s = .next t) : t.goodEnd = true ↔ s.fetchInstr m = some .hlt := by
  rw [goodEnd_iff]
  constructor
  · rintro ⟨hrun, hfault⟩
    obtain ⟨i, hi, hhalts⟩ := (stepWith_run_eq_halted_iff hr h).mp hrun
    rw [hi, eq_hlt_of_haltsIn hhalts ((stepWith_fetched hr hi).symm.trans h) hfault]
  · intro hi
    cases (stepWith_fetched hr hi).symm.trans h
    exact ⟨rfl, hf⟩

theorem spinning_iff (m : OpcodeMap) (s : State) :
    s.spinning m = true ↔ s.run = .running ∧ m.lookup (s.memRead s.pc) = none := by
  simp [State.spinning]

/-- Each status is the reading of its own run state and latch (rule R156). -/
theorem ending_eq_iff (s : State) :
    (s.ending = .stillRunning ↔ s.run = .running) ∧
    (s.ending = .normal ↔ s.run = .halted ∧ s.fault = .none) ∧
    (s.ending = .divisionByZero ↔ s.run = .halted ∧ s.fault = .divZero) ∧
    (s.ending = .invalidRegister ↔ s.run = .halted ∧ s.fault = .badReg) := by
  unfold State.ending
  split <;> simp [*]

theorem FaultLatch.ne_none_iff (f : FaultLatch) : f ≠ .none ↔ f = .divZero ∨ f = .badReg := by
  cases f <;> decide

/-- Settles O23: a step of a core with no fault latched ends well exactly by `HLT`, so each other halt is an end by a fault. -/
theorem everyEndOfARunIsClassified : Obligations.EveryEndOfARunIsClassified := by
  refine ⟨fun m s t hinv hr h => ?_, fun t => ?_⟩
  · have hf : s.fault = .none := by
      by_contra hne
      cases hr.symm.trans (hinv.2 hne)
    have hgood := goodEnd_iff_fetchInstr_eq_hlt hr hf h
    refine ⟨hgood, ?_, fun hspin => ?_⟩
    · rw [faulted_iff, ne_eq, ne_eq, ← hgood, goodEnd_iff]
      tauto
    · obtain ⟨-, hnone⟩ := (spinning_iff m s).mp hspin
      cases (unmappedOpcodeSpinsForever m s hr hnone).1.symm.trans h
      exact ⟨rfl, (ending_eq_iff s).1.mpr hr⟩
  · obtain ⟨hrunning, hnormal, hdivZero, hbadReg⟩ := ending_eq_iff t
    refine ⟨hrunning, hnormal, hdivZero, hbadReg, (goodEnd_iff t).trans hnormal.symm, ?_⟩
    rw [faulted_iff, FaultLatch.ne_none_iff, and_or_left, hdivZero, hbadReg]

/-- Settles O51, by the three values of the latch. -/
theorem latchCodesAreThoseOfTheTable : Obligations.LatchCodesAreThoseOfTheTable :=
  ⟨rfl, rfl, rfl, fun f => by cases f <;> decide⟩

end Sys2Proof.Machine
end

section
/-! Memory and output (20_memory.md rules R30 to R42, 10_state.md rule R22): which instructions use them, and how. -/

namespace Sys2Proof.Machine

/-! ## The uses of memory and output -/

/-- `s` with another memory and output. -/
def State.withData (s : State) (μ : Memory) (o : List Byte) : State := { s with mem := μ, out := o }

@[simp] theorem readReg_withData (s : State) (μ : Memory) (o : List Byte) (i : RegIdx) :
    (s.withData μ o).readReg i = s.readReg i := rfl

@[simp] theorem withData_E (s : State) (μ : Memory) (o : List Byte) : (s.withData μ o).E = s.E := rfl

/-- At `s`, instruction `i` neither reads nor writes memory or output: each value of them goes through the step unchanged. -/
def PassesData (s : State) (i : Instr) : Prop :=
  ∃ t : State, ∀ μ o, exec i (s.withData μ o) = .next (t.withData μ o)

/-- An instruction passes memory and output through if its effect `F` commutes with setting them. -/
theorem PassesData.of_commutes {i : Instr} {F : State → State} {s : State} (hF : ∀ u, exec i u = .next (F u))
    (hc : ∀ μ o, F (s.withData μ o) = (F s).withData μ o) : PassesData s i :=
  ⟨F s, fun μ o => (hF _).trans (congrArg _ (hc μ o))⟩

theorem PassesData.exec_withData {i : Instr} {s t : State} (h : PassesData s i) (ht : exec i s = .next t) (μ : Memory)
    (o : List Byte) : exec i (s.withData μ o) = .next (t.withData μ o) := by
  obtain ⟨u, hu⟩ := h
  cases ht.symm.trans (hu s.mem s.out)
  exact hu μ o

theorem PassesData.data_eq {i : Instr} {s t : State} (h : PassesData s i) (ht : exec i s = .next t) :
    t.mem = s.mem ∧ t.out = s.out := by
  obtain ⟨u, hu⟩ := h
  cases ht.symm.trans (hu s.mem s.out)
  exact ⟨rfl, rfl⟩

/-- The ways an instruction may use memory and output in state `s`. -/
inductive DataUse (s : State) : Instr → Prop where
  | passes {i : Instr} (h : PassesData s i) : DataUse s i
  | prn (a : RegIdx) : DataUse s (.prn (regByte a))
  | push (a : RegIdx) : DataUse s (.push (regByte a))
  | pop (a : RegIdx) : DataUse s (.pop (regByte a))
  | call (a : RegIdx) : DataUse s (.call (regByte a))
  | ret : DataUse s .ret

theorem passesData_mod (a b : RegIdx) (s : State) : PassesData s (.mod (regByte a) (regByte b)) := by
  by_cases h : s.readReg b = 0
  · exact ⟨s.raiseDivideByZero, fun μ o => by rw [exec_mod, readReg_withData, if_pos h]; rfl⟩
  · exact ⟨(s.writeReg a (aluMod (s.readReg a) (s.readReg b))).advance 3, fun μ o => by
      rw [exec_mod, readReg_withData, if_neg h]; rfl⟩

theorem passesData_jeq (a : RegIdx) (s : State) : PassesData s (.jeq (regByte a)) :=
  .of_commutes (exec_jeq a) fun μ o => by
    rw [withData_E]
    split <;> rfl

theorem passesData_jne (a : RegIdx) (s : State) : PassesData s (.jne (regByte a)) :=
  .of_commutes (exec_jne a) fun μ o => by
    rw [withData_E]
    split <;> rfl

/-- Every instruction but `PRN` and the four stack instructions passes memory and output through. -/
theorem dataUse (s : State) (i : Instr) : DataUse s i := by
  cases hw : i.wellFormed with
  | false => exact .passes (.of_commutes (fun u => exec_of_invalid u hw) fun _ _ => rfl)
  | true =>
    refine wellFormed_induction (P := DataUse s) ?add ?mul ?cmp ?and ?or ?xor ?shl ?shr ?mod ?ldi ?not .prn .push .pop .call
      ?jmp ?jeq ?jne .ret ?hlt i hw
    case add => exact fun a b => .passes (.of_commutes (exec_add a b) fun _ _ => rfl)
    case mul => exact fun a b => .passes (.of_commutes (exec_mul a b) fun _ _ => rfl)
    case cmp => exact fun a b => .passes (.of_commutes (exec_cmp a b) fun _ _ => rfl)
    case and => exact fun a b => .passes (.of_commutes (exec_and a b) fun _ _ => rfl)
    case or => exact fun a b => .passes (.of_commutes (exec_or a b) fun _ _ => rfl)
    case xor => exact fun a b => .passes (.of_commutes (exec_xor a b) fun _ _ => rfl)
    case shl => exact fun a b => .passes (.of_commutes (exec_shl a b) fun _ _ => rfl)
    case shr => exact fun a b => .passes (.of_commutes (exec_shr a b) fun _ _ => rfl)
    case mod => exact fun a b => .passes (passesData_mod a b s)
    case ldi => exact fun a v => .passes (.of_commutes (exec_ldi a v) fun _ _ => rfl)
    case not => exact fun a => .passes (.of_commutes (exec_not a) fun _ _ => rfl)
    case jmp => exact fun a => .passes (.of_commutes (exec_jmp a) fun _ _ => rfl)
    case jeq => exact fun a => .passes (passesData_jeq a s)
    case jne => exact fun a => .passes (passesData_jne a s)
    case hlt => exact .passes (.of_commutes exec_hlt fun _ _ => rfl)

/-! ## The output (rules R22, R127) -/

/-- In the step from `s` to `t`, instruction `i` appends `printed` to the output, whatever the output is. -/
def Prints (i : Instr) (s t : State) (printed : List Byte) : Prop :=
  ∀ o, exec i (s.withData s.mem o) = .next (t.withData t.mem (o ++ printed))

theorem Prints.nil {i : Instr} {s t : State} (h : ∀ o, exec i (s.withData s.mem o) = .next (t.withData t.mem o)) :
    Prints i s t [] := fun o => (h o).trans (by rw [List.append_nil])

theorem Prints.out_eq {i : Instr} {s t : State} {printed : List Byte} (hp : Prints i s t printed) (h : exec i s = .next t) :
    t.out = s.out ++ printed :=
  congrArg State.out (Host.Outcome.next.inj (h.symm.trans (hp s.out)))

/-- An instruction prints nothing, or it is a `PRN` and prints its register. -/
theorem prints_of_exec {i : Instr} {s t : State} (h : exec i s = .next t) :
    Prints i s t [] ∨ ∃ a : RegIdx, i = .prn (regByte a) ∧ Prints i s t [s.readReg a] := by
  cases dataUse s i with
  | passes hp => exact .inl (.nil fun o => by rw [hp.exec_withData h, (hp.data_eq h).1])
  | prn a => cases (exec_prn a s).symm.trans h; exact .inr ⟨a, rfl, fun _ => exec_prn a _⟩
  | push a => cases (exec_push a s).symm.trans h; exact .inl (.nil fun _ => exec_push a _)
  | pop a => cases (exec_pop a s).symm.trans h; exact .inl (.nil fun _ => exec_pop a _)
  | call a => cases (exec_call a s).symm.trans h; exact .inl (.nil fun _ => exec_call a _)
  | ret => cases (exec_ret s).symm.trans h; exact .inl (.nil fun _ => exec_ret _)

/-- Settles O21, from what an instruction prints. -/
theorem outputGrowsOnlyByPrint : Obligations.OutputGrowsOnlyByPrint := by
  intro m s t h
  obtain ⟨rfl, -⟩ | ⟨i, -, hf, he⟩ := stepWith_cases h
  · exact .inl rfl
  · obtain hp | ⟨a, rfl, hp⟩ := prints_of_exec he
    · exact .inl ((hp.out_eq he).trans (List.append_nil _))
    · exact .inr ⟨a, hf, hp.out_eq he⟩

/-! ## Run state, latch and output (rules R18, R19, R22) -/

/-- What an instruction does but to the run state and the latch is the same for each value of them. -/
theorem exec_setStatus {i : Instr} {s t : State} (r : RunState) (f : FaultLatch) (h : exec i s = .next t) :
    ∃ r' f', exec i (s.withStatus s.E r f) = .next (t.withStatus t.E r' f') := by
  cases statusUse s i with
  | invalid hw =>
    cases (exec_of_invalid s hw).symm.trans h
    exact ⟨.halted, .badReg, exec_of_invalid _ hw⟩
  | passes hp =>
    obtain ⟨u, hu⟩ := hp
    cases h.symm.trans (hu s.E s.run s.fault)
    exact ⟨r, f, hu s.E r f⟩
  | cmp a b =>
    cases (exec_cmp a b s).symm.trans h
    exact ⟨r, f, exec_cmp a b _⟩
  | modZero a b h0 =>
    cases (exec_modZero a h0).symm.trans h
    exact ⟨.halted, .divZero, exec_modZero a h0⟩
  | jeq a =>
    cases (exec_jeq a s).symm.trans h
    refine ⟨r, f, (exec_jeq a _).trans (congrArg _ ?_)⟩
    cases hE : s.E <;> simp [State.withStatus, hE] <;> rfl
  | jne a =>
    cases (exec_jne a s).symm.trans h
    refine ⟨r, f, (exec_jne a _).trans (congrArg _ ?_)⟩
    cases hE : s.E <;> simp [State.withStatus, hE] <;> rfl
  | hlt =>
    cases h
    exact ⟨.halted, f, rfl⟩

/-- Settles O20: change the run state and the latch, then the output. -/
theorem statusAndOutputNeverInfluenceTheProgram : Obligations.StatusAndOutputNeverInfluenceTheProgram := by
  intro i s s' hx hpc hE hmem
  obtain ⟨t, ht⟩ := exists_exec_eq_next i s
  obtain ⟨r, f, hstatus⟩ := exec_setStatus s'.run s'.fault ht
  obtain ⟨printed, hp⟩ : ∃ printed, Prints i (s.withStatus s.E s'.run s'.fault) (t.withStatus t.E r f) printed :=
    (prints_of_exec hstatus).elim (fun hp => ⟨_, hp⟩) fun ⟨_, _, hp⟩ => ⟨_, hp⟩
  have hs' : s' = (s.withStatus s.E s'.run s'.fault).withData s.mem s'.out :=
    State.eq_of_fields hx hpc hE rfl rfl hmem rfl
  refine ⟨t, (t.withStatus t.E r f).withData t.mem (s'.out ++ printed), printed, ht, ?_, rfl, rfl, rfl, rfl,
    hp.out_eq hstatus, rfl⟩
  rw [hs']
  exact hp s'.out

/-! ## Memory (rule R35) -/

/-- Only a valid `PUSH` or `CALL` stores. -/
theorem exec_mem {i : Instr} {s t : State} (h : exec i s = .next t) :
    t.mem = s.mem ∨ (∃ a, i = .push a ∨ i = .call a) ∧ ∃ v, t.mem = (s.memWrite s.decSp.stackAddr v).mem := by
  cases dataUse s i with
  | passes hp => exact .inl (hp.data_eq h).1
  | prn a => cases (exec_prn a s).symm.trans h; exact .inl rfl
  | push a => cases (exec_push a s).symm.trans h; exact .inr ⟨⟨_, .inl rfl⟩, _, rfl⟩
  | pop a => cases (exec_pop a s).symm.trans h; exact .inl rfl
  | call a => cases (exec_call a s).symm.trans h; exact .inr ⟨⟨_, .inr rfl⟩, _, rfl⟩
  | ret => cases h; exact .inl rfl

theorem memRead_congr {s t : State} (h : t.mem = s.mem) (c : Byte) : t.memRead c = s.memRead c :=
  congrArg (Memory.readAt · c.toNat) h

theorem sameMemBut_of_exec {i : Instr} {s t : State} (h : exec i s = .next t) : SameMemBut [s.decSp.stackAddr] s t := by
  intro c hc
  obtain hmem | ⟨-, v, hmem⟩ := exec_mem h
  · exact memRead_congr hmem c
  · rw [memRead_congr hmem, memRead_memWrite, if_neg (List.ne_of_not_mem_cons hc)]

theorem sameMemBut_nil_of_exec {i : Instr} {s t : State} (hi : ∀ a, i ≠ .push a ∧ i ≠ .call a) (h : exec i s = .next t) :
    SameMemBut [] s t := by
  intro c _
  obtain hmem | ⟨⟨a, rfl | rfl⟩, -⟩ := exec_mem h
  · exact memRead_congr hmem c
  · exact absurd rfl (hi a).1
  · exact absurd rfl (hi a).2

/-- Only `POP` and `RET` read data, the byte at the stack pointer: for any memory that agrees there, an instruction does the
same but to memory. -/
theorem exec_setMem {i : Instr} {s t : State} (μ : Memory) (h : exec i s = .next t)
    (hread : (∃ a, i = .pop a) ∨ i = .ret → μ.readAt s.stackAddr.toNat = s.memRead s.stackAddr) :
    ∃ μ', exec i (s.withData μ s.out) = .next (t.withData μ' t.out) := by
  cases dataUse s i with
  | passes hp =>
    refine ⟨μ, ?_⟩
    rw [hp.exec_withData h, (hp.data_eq h).2]
  | prn a =>
    cases (exec_prn a s).symm.trans h
    exact ⟨μ, exec_prn a _⟩
  | push a =>
    cases (exec_push a s).symm.trans h
    exact ⟨_, exec_push a _⟩
  | call a =>
    cases (exec_call a s).symm.trans h
    exact ⟨_, exec_call a _⟩
  | pop a =>
    cases (exec_pop a s).symm.trans h
    rw [← hread (.inl ⟨_, rfl⟩)]
    exact ⟨μ, exec_pop a _⟩
  | ret =>
    cases (exec_ret s).symm.trans h
    rw [← hread (.inr rfl)]
    exact ⟨μ, exec_ret _⟩

/-- Settles O22, the stores and then the reads. -/
theorem dataAccessesAreThoseOfTheTable : Obligations.DataAccessesAreThoseOfTheTable := by
  refine ⟨fun _ _ _ => sameMemBut_nil_of_exec, fun _ _ _ _ _ => sameMemBut_of_exec, fun i s t s' t' h h' hs' hread => ?_⟩
  obtain ⟨μ, hμ⟩ := exec_setMem s'.mem h hread
  rw [hs'] at h'
  cases hμ.symm.trans h'
  rfl

end Sys2Proof.Machine
end

section
/-! The invariant of every step (10_state.md rule R19, 20_memory.md rule R30): canonical memory, and a latch that means a
halt. -/

namespace Sys2Proof.Machine

/-! ## Steps -/

theorem wf_of_exec {i : Instr} {s t : State} (h : exec i s = .next t) (hwf : s.mem.wf = true) : t.mem.wf = true := by
  obtain hmem | ⟨-, v, hmem⟩ := exec_mem h
  · rwa [hmem]
  · rw [hmem]
    exact memWrite_wf hwf _ v

/-- An instruction that a RUNNING core of the invariant runs changes the latch only with a halt. -/
theorem inv_of_exec {i : Instr} {s t : State} (hr : s.run = .running) (hinv : s.Inv) (h : exec i s = .next t) : t.Inv := by
  obtain ⟨hwf, hlatch⟩ := hinv
  refine ⟨wf_of_exec h hwf, fun hne => ?_⟩
  by_cases hf : t.fault = s.fault
  · cases hr.symm.trans (hlatch (hf ▸ hne))
  · exact (exec_halts_of_fault_ne h hf).1

/-- Settles O13, from the ways a step goes. -/
theorem everyStepKeepsTheInvariant : Obligations.EveryStepKeepsTheInvariant := by
  intro m s t hinv h
  obtain ⟨rfl, -⟩ | ⟨i, hr, -, he⟩ := stepWith_cases h
  · exact hinv
  · exact inv_of_exec hr hinv he

/-! ## Reset and launch -/

/-- A memory of canonical form and no fault latched are the invariant. -/
theorem inv_of_fault_eq_none {s : State} (hwf : s.mem.wf = true) (hf : s.fault = .none) : s.Inv :=
  ⟨hwf, fun hne => absurd hf hne⟩

/-- Settles O12: after reset no cell is listed and no fault is latched. -/
theorem resetMeetsTheInvariant : Obligations.ResetMeetsTheInvariant :=
  ⟨fun _ => inv_of_fault_eq_none Memory.wf_nil rfl, inv_of_fault_eq_none Memory.wf_nil rfl⟩

/-- Loading bytes that fit below address 256 keeps the canonical form. -/
theorem Memory.wf_loadFrom (image : List Byte) {m : Memory} {k : Nat} (hwf : m.wf = true) (hk : k + image.length ≤ 256) :
    (m.loadFrom k image).wf = true := by
  induction image generalizing m k with
  | nil => exact hwf
  | cons b bs ih =>
    rw [List.length_cons] at hk
    exact ih (Memory.wf_writeAt hwf (by omega) b) (by omega)

theorem launch_of_length_gt {image : List Byte} (sp : Byte) (h : 256 < image.length) :
    launch sp image = .refused (.imageTooLong image.length) := if_neg (Nat.not_le.mpr h)

/-- Settles O14: a launch that answers a state loads an image that fits. -/
theorem launchMeetsTheInvariant : Obligations.LaunchMeetsTheInvariant := by
  intro sp image s h
  obtain hgt | hle := Nat.lt_or_ge 256 image.length
  · cases (launch_of_length_gt sp hgt).symm.trans h
  · cases (launch_of_length_le sp hle).symm.trans h
    exact inv_of_fault_eq_none (Memory.wf_loadFrom image Memory.wf_nil (by omega)) rfl

/-- Settles O48: the empty image leaves the reset state, which is on the unmapped opcode 0. -/
theorem longImagesAreRefusedAndEmptyOnesSpin : Obligations.LongImagesAreRefusedAndEmptyOnesSpin := by
  refine ⟨fun sp _ => launch_of_length_gt sp, fun sp =>
    ⟨State.resetWith sp, launch_of_length_le sp (Nat.zero_le _), rfl, ?_⟩⟩
  exact (unmappedOpcodeSpinsForever _ (State.resetWith sp) rfl unmappedOpcodesNumber236.2).2

end Sys2Proof.Machine
end

section
/-! Memory itself (20_memory.md rules R30, R31, R36): a read after a write, and canonical memories by what they read as. -/

namespace Sys2Proof.Machine

/-- Settles O43, from the read of a store. -/
theorem readGivesTheByteLastWritten : Obligations.ReadGivesTheByteLastWritten :=
  fun s c v => ⟨fun d => memRead_memWrite s c d v, rfl⟩

/-- In a sorted memory each entry is what its cell reads as. -/
theorem Memory.readAt_of_mem {m : Memory} (hm : m.Pairwise (fun c d => c.1 < d.1)) {c : Host.Cell} (hc : c ∈ m) :
    m.readAt c.1 = c.2 := by
  induction m with
  | nil => cases hc
  | cons d rest ih =>
    obtain ⟨hd, hrest⟩ := List.pairwise_cons.mp hm
    obtain rfl | hc := List.mem_cons.mp hc
    · exact if_pos rfl
    · exact (if_neg (Nat.ne_of_lt (hd c hc))).trans (ih hrest hc)

/-- A cell that does not read as an unlisted one is listed. -/
theorem Memory.mem_of_readAt {m : Memory} {a : Nat} (h : m.readAt a ≠ Memory.unlisted) : (a, m.readAt a) ∈ m := by
  induction m with
  | nil => exact absurd rfl h
  | cons d rest ih =>
    obtain ⟨b, w⟩ := d
    simp only [Memory.readAt] at h ⊢
    split
    next hb => simp [hb]
    next hb =>
      rw [if_neg hb] at h
      exact List.mem_cons_of_mem _ (ih h)

/-- Each entry of a canonical memory is in every memory that reads the same. -/
theorem Memory.subset_of_readAt_eq {m m' : Memory} (hm : m.wf = true)
    (h : ∀ c : Byte, m.readAt c.toNat = m'.readAt c.toNat) : m ⊆ m' := by
  obtain ⟨hsorted, hentries⟩ := (Memory.wf_iff m).mp hm
  intro c hc
  obtain ⟨hlt, hne⟩ := hentries c hc
  have hread : m'.readAt c.1 = c.2 := by
    have := h (BitVec.ofNat 8 c.1)
    rw [BitVec.toNat_ofNat, Nat.mod_eq_of_lt hlt] at this
    rw [← this, Memory.readAt_of_mem hsorted hc]
  have hmem := Memory.mem_of_readAt (m := m') (a := c.1) (by rwa [hread])
  rwa [hread] at hmem

/-- Settles O44: the two have the same entries, each once, in the same order. -/
theorem canonicalMemoriesAreExtensional : Obligations.CanonicalMemoriesAreExtensional := by
  intro m m' hm hm' h
  obtain ⟨hsorted, -⟩ := (Memory.wf_iff m).mp hm
  obtain ⟨hsorted', -⟩ := (Memory.wf_iff m').mp hm'
  have hperm : m.Perm m' := (List.perm_ext_iff_of_nodup (hsorted.imp fun h e => absurd (e ▸ h) (Nat.lt_irrefl _))
    (hsorted'.imp fun h e => absurd (e ▸ h) (Nat.lt_irrefl _))).mpr fun c =>
      ⟨fun hc => Memory.subset_of_readAt_eq hm h hc, fun hc => Memory.subset_of_readAt_eq hm' (fun c => (h c).symm) hc⟩
  exact hperm.eq_of_pairwise (fun c d _ _ h h' => absurd h' (Nat.lt_asymm h)) hsorted hsorted'

end Sys2Proof.Machine
end

section
/-! The program counter (40_fetch_decode_execute.md rule R74): the controller's table. -/

namespace Sys2Proof.Machine

theorem pcAdvanced_of_exec {i : Instr} {s t u : State} {n : Nat} (hi : exec i s = .next (u.advance n)) (hu : u.pc = s.pc)
    (h : exec i s = .next t) : PcAdvanced n s t := by
  cases hi.symm.trans h
  exact pcAdvanced_advance hu n

theorem pcAdvanced_of_exec_mod {a b : RegIdx} {s t : State} (h : exec (.mod (regByte a) (regByte b)) s = .next t) :
    PcAdvanced 3 s t := by
  rw [exec_mod] at h
  split at h
  · cases h; exact pcAdvanced_advance rfl 3
  · cases h; exact pcAdvanced_advance rfl 3

/-- A jump taken when the flag is `b` goes to its register; when not taken, it advances. -/
theorem pc_of_jump {i : Instr} {a : RegIdx} {s t : State} {b : Bool}
    (htaken : s.E = b → exec i s = .next (s.redirect (s.readReg a))) (hnot : s.E ≠ b → exec i s = .next (s.advance 2))
    (h : exec i s = .next t) :
    if s.E = b then ∃ a', regByte a = regByte a' ∧ t.pc = s.readReg a' else PcAdvanced 2 s t := by
  split
  next hE => cases (htaken hE).symm.trans h; exact ⟨a, rfl, rfl⟩
  next hE => exact pcAdvanced_of_exec (hnot hE) rfl h

/-- Settles O19: row by row of the controller's table, then the cases in which no row applies. -/
theorem pcControllerFollowsItsTable : Obligations.PcControllerFollowsItsTable := by
  refine ⟨fun i s t hi => ?_, fun i s t hi h => ?_, fun m s t hnone h => ?_⟩
  · revert i
    refine wellFormed_induction ?add ?mul ?cmp ?and ?or ?xor ?shl ?shr ?mod ?ldi ?not ?prn ?push ?pop ?call ?jmp ?jeq ?jne
      ?ret ?hlt
    case add => exact fun a b => pcAdvanced_of_exec (exec_add a b s) rfl
    case mul => exact fun a b => pcAdvanced_of_exec (exec_mul a b s) rfl
    case cmp => exact fun a b => pcAdvanced_of_exec (exec_cmp a b s) rfl
    case and => exact fun a b => pcAdvanced_of_exec (exec_and a b s) rfl
    case or => exact fun a b => pcAdvanced_of_exec (exec_or a b s) rfl
    case xor => exact fun a b => pcAdvanced_of_exec (exec_xor a b s) rfl
    case shl => exact fun a b => pcAdvanced_of_exec (exec_shl a b s) rfl
    case shr => exact fun a b => pcAdvanced_of_exec (exec_shr a b s) rfl
    case mod => exact fun a b => pcAdvanced_of_exec_mod
    case ldi => exact fun a v => pcAdvanced_of_exec (exec_ldi a v s) rfl
    case not => exact fun a => pcAdvanced_of_exec (exec_not a s) rfl
    case prn => exact fun a => pcAdvanced_of_exec (exec_prn a s) rfl
    case push => exact fun a => pcAdvanced_of_exec (exec_push a s) rfl
    case pop => exact fun a => pcAdvanced_of_exec (exec_pop a s) rfl
    case hlt => exact pcAdvanced_of_exec (exec_hlt s) rfl
    case jmp => exact fun a h => ⟨a, rfl, by cases (exec_jmp a s).symm.trans h; rfl⟩
    case call => exact fun a h => ⟨a, rfl, by cases (exec_call a s).symm.trans h; rfl⟩
    case jeq => exact fun a => pc_of_jump (fun hE => by simp [exec_jeq, hE]) (fun hE => by simp [exec_jeq, hE])
    case jne => exact fun a => pc_of_jump (fun hE => by simp [exec_jne, hE]) (fun hE => by simp [exec_jne, hE])
    case ret => exact pc_of_ret
  · cases (exec_of_invalid s hi).symm.trans h
    rfl
  · obtain ⟨rfl, -⟩ | ⟨i, -, hf, -⟩ := stepWith_cases h
    · rfl
    · cases (fetchInstr_of_unmapped hnone).symm.trans hf

end Sys2Proof.Machine
end

section
/-! Shifts and remainder (41_alu.md rules R98 to R100), and printing (42_load_print_stack.md rule R111). -/

namespace Sys2Proof.Machine

theorem aluShl_eq_shiftLeft (u v : Byte) : aluShl u v = u <<< v.toNat := by
  apply BitVec.eq_of_toNat_eq
  rw [aluShl_toNat, BitVec.toNat_shiftLeft, Nat.shiftLeft_eq]

theorem aluShr_eq_ushiftRight (u v : Byte) : aluShr u v = u >>> v.toNat := by
  apply BitVec.eq_of_toNat_eq
  rw [aluShr_toNat, BitVec.toNat_ushiftRight, Nat.shiftRight_eq_div_pow]

theorem aluShl_getLsbD (u v : Byte) {k : Nat} (hk : k < 8) :
    (aluShl u v).getLsbD k = (decide (v.toNat ≤ k) && u.getLsbD (k - v.toNat)) := by
  rw [aluShl_eq_shiftLeft, BitVec.getLsbD_shiftLeft, decide_eq_true hk, Bool.true_and, ← decide_not]
  simp only [Nat.not_lt]

theorem aluShr_getLsbD (u v : Byte) (k : Nat) : (aluShr u v).getLsbD k = u.getLsbD (k + v.toNat) := by
  rw [aluShr_eq_ushiftRight, BitVec.getLsbD_ushiftRight, Nat.add_comm]

theorem aluShl_eq_zero (u : Byte) {v : Byte} (hv : 8 ≤ v.toNat) : aluShl u v = 0 := by
  rw [aluShl_eq_shiftLeft]
  exact BitVec.shiftLeft_eq_zero hv

theorem aluShr_eq_zero (u : Byte) {v : Byte} (hv : 8 ≤ v.toNat) : aluShr u v = 0 := by
  rw [aluShr_eq_ushiftRight]
  exact BitVec.ushiftRight_eq_zero hv

/-- Settles O29: the results are `aluShl` and `aluShr`, bit by bit. -/
theorem shiftsMoveBitsByTheWholeAmount : Obligations.ShiftsMoveBitsByTheWholeAmount := by
  refine fun a b s => ⟨?shl, ?shr⟩
  case shl =>
    obtain ⟨t, ht, hframe, hval⟩ := exists_onlyRegChanged (exec_shl a b s)
    exact ⟨t, ht, hframe, fun _ hk => hval ▸ aluShl_getLsbD _ _ hk, fun hv => hval ▸ aluShl_eq_zero _ hv⟩
  case shr =>
    obtain ⟨t, ht, hframe, hval⟩ := exists_onlyRegChanged (exec_shr a b s)
    exact ⟨t, ht, hframe, fun k _ => hval ▸ aluShr_getLsbD _ _ k, fun hv => hval ▸ aluShr_eq_zero _ hv⟩

theorem exec_mod_of_ne_zero (a : RegIdx) {b : RegIdx} {s : State} (h : s.readReg b ≠ 0) :
    exec (.mod (regByte a) (regByte b)) s =
      .next ((s.writeReg a (aluMod (s.readReg a) (s.readReg b))).advance 3) := by
  rw [exec_mod, if_neg h]

theorem toNat_pos_of_ne_zero {v : Byte} (h : v ≠ 0) : 0 < v.toNat :=
  Nat.pos_of_ne_zero fun e => h (BitVec.eq_of_toNat_eq e)

/-- Settles O30: a quotient is that of the division of numbers. -/
theorem modIsTheRemainderOrDivideByZero : Obligations.ModIsTheRemainderOrDivideByZero := by
  refine fun a b s => ⟨fun hne => ?_, fun h0 => ⟨_, exec_modZero a h0, pcAdvanced_advance rfl 3, rfl, rfl, fun _ _ => rfl,
    fun _ _ => rfl, rfl, rfl⟩⟩
  obtain ⟨t, ht, hframe, hval⟩ := exists_onlyRegChanged (exec_mod_of_ne_zero a hne)
  refine ⟨t, (s.readReg a).toNat / (s.readReg b).toNat, ht, hframe, ?_⟩
  rw [hval, aluMod_toNat]
  exact ⟨Nat.mod_lt _ (toNat_pos_of_ne_zero hne), (Nat.div_add_mod' _ _).symm⟩

/-- Settles O32: the output grows by the register, and a reserved byte is the one operand. -/
theorem prnAppendsTheRegister : Obligations.PrnAppendsTheRegister :=
  ⟨fun a s => ⟨rfl, _, exec_prn a s, rfl, fun _ _ => rfl, fun _ _ => rfl, rfl, rfl, rfl, pcAdvanced_advance rfl 2⟩,
    fun _ s => exec_of_reserved_one s rfl⟩

end Sys2Proof.Machine
end

section
/-! The stack (42_load_print_stack.md rules R112 to R114, 43_control.md rule R121): push, pop and call, and the fetch after a
store (20_memory.md rule R42). -/

namespace Sys2Proof.Machine

/-! ## The stack pointer -/

theorem toNat_sub_one (v : Byte) : (v - 1).toNat = (v.toNat + 255) % 256 := by
  rw [BitVec.toNat_sub, Nat.add_comm]
  rfl

theorem toNat_add_one (v : Byte) : (v + 1).toNat = (v.toNat + 1) % 256 := BitVec.toNat_add v 1

/-- The operand of a `PUSH` or a `CALL` is read after the decrement (rule R12). -/
theorem readReg_decSp (s : State) (a : RegIdx) :
    s.decSp.readReg a = if a = spIdx then s.readReg spIdx - 1 else s.readReg a := readReg_writeReg s spIdx a _

theorem stackAddr_decSp (s : State) : s.decSp.stackAddr = s.readReg spIdx - 1 := by simp

theorem sameRegsBut_decSp (s : State) : SameRegsBut [spIdx] s s.decSp := by
  intro r hr
  rw [readReg_decSp, if_neg (List.ne_of_not_mem_cons hr)]

/-! ## Push and call (rules R112, R121) -/

theorem readReg_of_push {a : RegIdx} {s t : State} (h : exec (.push (regByte a)) s = .next t) (r : RegIdx) :
    t.readReg r = if r = spIdx then s.readReg spIdx - 1 else s.readReg r := by
  cases (exec_push a s).symm.trans h
  exact readReg_decSp s r

theorem memRead_of_push {a : RegIdx} {s t : State} (h : exec (.push (regByte a)) s = .next t) :
    t.memRead s.decSp.stackAddr = if a = spIdx then s.readReg spIdx - 1 else s.readReg a := by
  cases (exec_push a s).symm.trans h
  rw [memRead_advance, memRead_memWrite, if_pos rfl, readReg_decSp]

theorem readReg_sp_of_push {a : RegIdx} {s t : State} (h : exec (.push (regByte a)) s = .next t) :
    t.readReg spIdx = s.decSp.stackAddr := by
  rw [readReg_of_push h, if_pos rfl, stackAddr_decSp]

/-- Settles O33, from the registers and the cell after a push. -/
theorem pushDecrementsThenStores : Obligations.PushDecrementsThenStores := by
  intro a s
  have h := exec_push a s
  refine ⟨_, h, ?_, sameRegsBut_decSp s, readReg_sp_of_push h, memRead_of_push h, sameMemBut_of_exec h,
    ⟨rfl, rfl, rfl, rfl⟩, pcAdvanced_advance rfl 2⟩
  rw [readReg_sp_of_push h, stackAddr_decSp, toNat_sub_one]

theorem memRead_of_call {a : RegIdx} {s t : State} (h : exec (.call (regByte a)) s = .next t) :
    t.memRead s.decSp.stackAddr = (s.advance 2).pc := by
  cases (exec_call a s).symm.trans h
  rw [memRead_redirect, memRead_memWrite, if_pos rfl]
  rfl

theorem pc_of_call {a : RegIdx} {s t : State} (h : exec (.call (regByte a)) s = .next t) :
    t.pc = if a = spIdx then s.readReg spIdx - 1 else s.readReg a := by
  cases (exec_call a s).symm.trans h
  exact readReg_decSp s a

/-- Settles O36, from the cell and the pc after a call. -/
theorem callPushesTheReturnAddress : Obligations.CallPushesTheReturnAddress := by
  intro a s
  have h := exec_call a s
  refine ⟨_, h, ?_, sameRegsBut_decSp s, rfl, ?_, sameMemBut_of_exec h, pc_of_call h, ⟨rfl, rfl, rfl, rfl⟩⟩
  · rw [readReg_sp_of_call h, toNat_sub_one]
  · rw [memRead_of_call h]
    exact pcAdvanced_advance rfl 2

/-! ## Pop (rule R113) -/

theorem readReg_of_pop {a : RegIdx} {s t : State} (h : exec (.pop (regByte a)) s = .next t) (r : RegIdx) :
    t.readReg r = if r = spIdx then (if a = spIdx then s.memRead (s.readReg spIdx) else s.readReg spIdx) + 1
      else if r = a then s.memRead (s.readReg spIdx) else s.readReg r := by
  cases (exec_pop a s).symm.trans h
  simp [eq_comm]

theorem memRead_of_pop {a : RegIdx} {s t : State} (h : exec (.pop (regByte a)) s = .next t) (c : Byte) :
    t.memRead c = s.memRead c := by
  cases (exec_pop a s).symm.trans h
  rfl

/-- Settles O34, from the registers after a pop. -/
theorem popLoadsThenIncrements : Obligations.PopLoadsThenIncrements := by
  intro a s
  have h := exec_pop a s
  refine ⟨_, h, fun ha => ?_, fun ha => ?_, fun r hr => ?_, fun c _ => memRead_of_pop h c, ⟨rfl, rfl, rfl, rfl⟩,
    pcAdvanced_advance rfl 2⟩
  · rw [readReg_of_pop h a, readReg_of_pop h spIdx, if_neg ha, if_pos rfl, if_pos rfl, if_neg ha, toNat_add_one]
    exact ⟨rfl, rfl⟩
  · rw [readReg_of_pop h, if_pos rfl, if_pos ha, toNat_add_one]
  · obtain ⟨hra, hsp⟩ : r ≠ a ∧ r ≠ spIdx := by simpa using hr
    rw [readReg_of_pop h, if_neg hsp, if_neg hra]

/-! ## Pushes and pops (rule R114) -/

/-- A push of `x[a]` and then a pop into `x[c]` is a copy. -/
theorem readReg_of_push_pop {a c : RegIdx} {s t u : State} (ha : a ≠ spIdx) (hc : c ≠ spIdx)
    (hpush : exec (.push (regByte a)) s = .next t) (hpop : exec (.pop (regByte c)) t = .next u) (r : RegIdx) :
    u.readReg r = if r = c then s.readReg a else s.readReg r := by
  rw [readReg_of_pop hpop, readReg_sp_of_push hpush, memRead_of_push hpush, if_neg hc, if_neg ha, stackAddr_decSp,
    BitVec.sub_add_cancel]
  by_cases hr : r = spIdx
  · rw [if_pos hr, if_neg (hr ▸ hc.symm), hr]
  · rw [if_neg hr, readReg_of_push hpush, if_neg hr]

/-- A push and then a pop leave every cell but the one pushed to, so the cell at the old stack pointer among them. -/
theorem memRead_sp_of_push_pop {a c : RegIdx} {s t u : State} (hpush : exec (.push (regByte a)) s = .next t)
    (hpop : exec (.pop (regByte c)) t = .next u) : u.memRead (s.readReg spIdx) = s.memRead (s.readReg spIdx) := by
  rw [memRead_of_pop hpop]
  refine sameMemBut_of_exec hpush _ ?_
  rw [stackAddr_decSp, List.mem_singleton]
  bv_omega

/-- Settles O35: the inner push and pop copy `x[b]` into `x[c]` and leave the cell that the outer pop loads. -/
theorem stackIsLastInFirstOut : Obligations.StackIsLastInFirstOut := by
  constructor
  · intro a c s t u ha hc hpush hpop
    have hregs := readReg_of_push_pop ha hc hpush hpop
    refine ⟨(hregs c).trans (if_pos rfl), fun r hr => (hregs r).trans (if_neg (List.ne_of_not_mem_cons hr)), ?_⟩
    rw [memRead_of_pop hpop, memRead_of_push hpush, if_neg ha]
  · intro a b c d s s1 s2 s3 s4 ha hb hc hd hcd hpush hpush' hpop hpop'
    have hregs := readReg_of_push_pop hb hc hpush' hpop
    have hsp1 := readReg_sp_of_push hpush
    have hsp3 : s3.readReg spIdx = s1.readReg spIdx := (hregs spIdx).trans (if_neg hc.symm)
    refine ⟨?c, ?d, ?sp⟩
    case c =>
      rw [readReg_of_pop hpop', if_neg hc, if_neg hcd, hregs, if_pos rfl, readReg_of_push hpush, if_neg hb]
    case d =>
      rw [readReg_of_pop hpop', if_neg hd, if_pos rfl, hsp3, memRead_sp_of_push_pop hpush' hpop, hsp1,
        memRead_of_push hpush, if_neg ha]
    case sp =>
      rw [readReg_of_pop hpop', if_pos rfl, if_neg hd, hsp3, hsp1, stackAddr_decSp, BitVec.sub_add_cancel]

/-! ## The fetch after a store (rule R42) -/

theorem pc_eq_of_pcAdvanced {s t : State} {n : Nat} (h : PcAdvanced n s t) :
    t.pc = BitVec.ofNat 8 ((s.pc.toNat + n) % 256) := by
  rw [← h, BitVec.ofNat_toNat, BitVec.setWidth_eq]

theorem head?_fetchBytes_eq {m : OpcodeMap} {s : State} {c v : Byte} (hpc : s.pc = c) (hv : s.memRead c = v) :
    (s.fetchBytes m).head? = some v := by
  rw [fetchBytes_head, hpc, hv]

theorem stepWith_of_hlt_byte {m : OpcodeMap} (hm : m.Acceptable) {s : State} (hr : s.run = .running)
    (h : s.memRead s.pc = m.hlt) : stepWith m s = exec .hlt s :=
  stepWith_fetched hr (fetchInstr_of_lookup hm (k := .hlt) (hm.lookup_eq_some_iff.mpr h.symm))

/-- Settles O45: after a push or a call onto the next fetch, the cell at the pc holds what was stored. -/
theorem nextFetchSeesThePushedByte : Obligations.NextFetchSeesThePushedByte := by
  refine ⟨fetchBytes_head, fun m s a hr hf hcell => ?_, fun m s a hr hf htarget => ?_⟩
  · obtain ⟨t, h, -, -, -, hv, -, ⟨-, hrun, -, -⟩, hpc⟩ := pushDecrementsThenStores a s
    rw [hcell, ← pc_eq_of_pcAdvanced hpc] at hv
    have hr' : t.run = .running := hrun.trans hr
    refine ⟨t, _, rfl, (stepWith_fetched hr hf).trans h, hpc, head?_fetchBytes_eq rfl hv, fun hnone => ?_, fun hm hhlt => ?_⟩
    · exact (unmappedOpcodeSpinsForever m t hr' (hv ▸ hnone)).1
    · exact stepWith_of_hlt_byte hm hr' (hv.trans hhlt)
  · obtain ⟨t, h, -, -, -, hv, -, htpc, -⟩ := callPushesTheReturnAddress a s
    have hpc : t.pc = s.decSp.stackAddr := by
      rw [htpc, stackAddr_decSp]
      split
      next => rfl
      next ha => rw [htarget.resolve_left ha, stackAddr_decSp]
    refine ⟨t, (stepWith_fetched hr hf).trans h, hpc, head?_fetchBytes_eq hpc ?_⟩
    rw [← hv, BitVec.ofNat_toNat, BitVec.setWidth_eq]

end Sys2Proof.Machine
end

section
/-! The program text (30_encoding.md rule R62): the byte of a line of binary digits. -/

namespace Sys2Proof.Machine

/-! ## Binary digits -/

/-- The character of a binary digit. -/
def bitChar (b : Bool) : Char := if b then '1' else '0'

/-- The value of a run of bits, most-significant first, after a run of value `acc`. -/
def bitsValue (acc : Nat) (bits : List Bool) : Nat := bits.foldl (fun n b => 2 * n + b.toNat) acc

theorem binaryValue_map_bitChar (bits : List Bool) (acc : Nat) :
    binaryValue acc (bits.map bitChar) = some (bitsValue acc bits) := by
  induction bits generalizing acc with
  | nil => rfl
  | cons b bs ih => cases b <;> simp [binaryValue, bitChar, ih, bitsValue]

theorem binaryValue_eq_none {cs : List Char} (h : ∃ c ∈ cs, c ≠ '0' ∧ c ≠ '1') (acc : Nat) : binaryValue acc cs = none := by
  induction cs generalizing acc with
  | nil => simp at h
  | cons d ds ih =>
    obtain ⟨c, hc, h0, h1⟩ := h
    obtain rfl | hc := List.mem_cons.mp hc
    · simp [binaryValue, h0, h1]
    · simp only [binaryValue, ih ⟨c, hc, h0, h1⟩, ite_self]

/-- The `n` low bits of a number, most-significant first, have its value modulo `2 ^ n`. -/
theorem bitsValue_testBit (x n acc : Nat) :
    bitsValue acc ((List.range n).reverse.map x.testBit) = acc * 2 ^ n + x % 2 ^ n := by
  induction n generalizing acc with
  | zero => simp [bitsValue, Nat.mod_one]
  | succ n ih =>
    have step : bitsValue acc ((List.range (n + 1)).reverse.map x.testBit) =
        bitsValue (2 * acc + (x.testBit n).toNat) ((List.range n).reverse.map x.testBit) := by
      simp [List.range_succ, bitsValue]
    rw [step, ih, Nat.mod_pow_succ, Nat.toNat_testBit]
    ring

/-! ## Lines -/

/-- The eight digits of a byte, most-significant first. -/
def byteDigits (v : Byte) : List Char := ((List.range 8).reverse.map v.toNat.testBit).map bitChar

theorem binaryValue_byteDigits (v : Byte) : binaryValue 0 (byteDigits v) = some v.toNat := by
  rw [byteDigits, binaryValue_map_bitChar, bitsValue_testBit, Nat.zero_mul, Nat.zero_add, Nat.mod_eq_of_lt v.isLt]

theorem parseLine_byteDigits (v : Byte) (after : List Char) : parseLine (byteDigits v ++ after) = some v := by
  have hlen : (byteDigits v).length = 8 := rfl
  have htake : (byteDigits v ++ after).take 8 = byteDigits v := List.take_left' hlen
  rw [parseLine, if_pos (by simp [hlen]), htake, binaryValue_byteDigits, Option.map_some, BitVec.ofNat_toNat,
    BitVec.setWidth_eq]

theorem parseLine_eq_none {line : List Char} (h : line.length < 8 ∨ ∃ c ∈ line.take 8, c ≠ '0' ∧ c ≠ '1') :
    parseLine line = none := by
  unfold parseLine
  split
  next hlen => rw [binaryValue_eq_none (h.resolve_left (Nat.not_lt.mpr hlen)), Option.map_none]
  next => rfl

/-- Settles O50, from the value of a run of binary digits. -/
theorem programLinesGiveTheirBytes : Obligations.ProgramLinesGiveTheirBytes := by
  refine ⟨fun v after lines => ?_, fun line lines h => ?_, rfl⟩
  · have h := parseLine_byteDigits v after
    exact ⟨h, List.filterMap_cons_some h⟩
  · have h := parseLine_eq_none h
    exact ⟨h, List.filterMap_cons_none h⟩

end Sys2Proof.Machine
end

section
/-! The console text (10_state.md rule R22): the decimal numeral of a byte, and the output that a text shows. -/

namespace Sys2Proof.Machine

/-! ## Numerals -/

/-- The three forms of a numeral, by its number of digits. -/
theorem decimal_cases (v : Byte) :
    (v.toNat < 10 ∧ decimal v = [digitChar (v.toNat % 10)]) ∨
    (10 ≤ v.toNat ∧ v.toNat < 100 ∧ decimal v = [digitChar (v.toNat / 10 % 10), digitChar (v.toNat % 10)]) ∨
    (100 ≤ v.toNat ∧
      decimal v = [digitChar (v.toNat / 100), digitChar (v.toNat / 10 % 10), digitChar (v.toNat % 10)]) := by
  obtain h | h := Nat.lt_or_ge v.toNat 10
  · exact .inl ⟨h, by simp [decimal, Nat.not_le_of_lt h, Nat.not_le_of_lt (Nat.lt_trans h (by decide : 10 < 100))]⟩
  · obtain h' | h' := Nat.lt_or_ge v.toNat 100
    · exact .inr (.inl ⟨h, h', by simp [decimal, h, h']⟩)
    · exact .inr (.inr ⟨h', by simp [decimal, h, h']⟩)

theorem digitChar_toNat {d : Nat} (h : d < 10) : (digitChar d).toNat - 48 = d := (digitChar_spec d h).2.2.2.1

theorem digitChar_ne_zero {d : Nat} (h : d < 10) (hpos : 0 < d) : digitChar d ≠ '0' := fun e =>
  Nat.ne_of_gt hpos ((digitChar_spec d h).2.2.1 e)

theorem isDigit_of_mem_decimal {v : Byte} {c : Char} (h : c ∈ decimal v) : '0' ≤ c ∧ c ≤ '9' := by
  obtain ⟨d, hd, rfl⟩ := exists_digit_of_mem_decimal h
  obtain ⟨hlow, hhigh, -⟩ := digitChar_spec d hd
  exact ⟨hlow, hhigh⟩

theorem length_decimal (v : Byte) : (decimal v).length ∈ [1, 2, 3] := by
  obtain ⟨-, e⟩ | ⟨-, -, e⟩ | ⟨-, e⟩ := decimal_cases v <;> simp [e]

/-- A numeral of more than one digit begins with a digit that is not 0. -/
theorem head?_decimal_ne {v : Byte} (h : 1 < (decimal v).length) : (decimal v).head? ≠ some '0' := by
  have hv := v.isLt
  obtain ⟨-, e⟩ | ⟨h10, h100, e⟩ | ⟨h100, e⟩ := decimal_cases v
  · simp [e] at h
  · rw [e]
    exact fun h0 => digitChar_ne_zero (by omega) (by omega) (Option.some.inj h0)
  · rw [e]
    exact fun h0 => digitChar_ne_zero (by omega) (by omega) (Option.some.inj h0)

/-- The value of a decimal numeral. -/
def numeralValue (cs : List Char) : Nat := cs.foldl (fun n c => 10 * n + (c.toNat - 48)) 0

theorem numeralValue_decimal (v : Byte) : numeralValue (decimal v) = v.toNat := by
  have hv := v.isLt
  have hones : (digitChar (v.toNat % 10)).toNat - 48 = v.toNat % 10 := digitChar_toNat (Nat.mod_lt _ (by omega))
  have htens : (digitChar (v.toNat / 10 % 10)).toNat - 48 = v.toNat / 10 % 10 := digitChar_toNat (Nat.mod_lt _ (by omega))
  have hhundreds : (digitChar (v.toNat / 100)).toNat - 48 = v.toNat / 100 := digitChar_toNat (by omega)
  obtain ⟨h, e⟩ | ⟨-, h, e⟩ | ⟨-, e⟩ := decimal_cases v <;>
    simp only [numeralValue, e, List.foldl_cons, List.foldl_nil, hones, htens, hhundreds] <;> omega

/-- Settles O49, from the three forms of a numeral. -/
theorem decimalNumeralOfAByte : Obligations.DecimalNumeralOfAByte :=
  ⟨fun v => ⟨length_decimal v, fun _ => isDigit_of_mem_decimal, head?_decimal_ne, numeralValue_decimal v⟩, rfl⟩

/-! ## Texts -/

theorem decimal_injective : Function.Injective decimal := fun v w e => BitVec.eq_of_toNat_eq (by
  rw [← numeralValue_decimal v, e, numeralValue_decimal])

@[simp] theorem renderOut_nil : renderOut [] = [] := rfl

@[simp] theorem renderOut_cons (v : Byte) (vs : List Byte) : renderOut (v :: vs) = decimal v ++ '\n' :: renderOut vs := by
  simp [renderOut]

/-- Two numerals that a newline ends, at the head of one text, are the same numeral. -/
theorem decimal_newline_inj {v w : Byte} {cs ds : List Char} (h : decimal v ++ '\n' :: cs = decimal w ++ '\n' :: ds) :
    v = w ∧ cs = ds := by
  have line (u : Byte) (es : List Char) : (decimal u ++ '\n' :: es).takeWhile (· ≠ '\n') = decimal u := by
    have hall : ∀ c ∈ decimal u, decide (c ≠ '\n') = true := fun c hc =>
      decide_eq_true fun e => newline_not_mem_decimal u (e ▸ hc)
    rw [List.takeWhile_append_of_pos hall, List.takeWhile_cons_of_neg (by decide), List.append_nil]
  have hline : decimal v = decimal w := by rw [← line v cs, h, line]
  obtain rfl := decimal_injective hline
  exact ⟨rfl, (List.cons.inj (List.append_cancel_left h)).2⟩

/-- A text has one way to be cut into lines, and each line is the numeral of one byte. -/
theorem renderOut_injective : Function.Injective renderOut := by
  intro out out' h
  induction out generalizing out' with
  | nil =>
    cases out' with
    | nil => rfl
    | cons w ws => simp at h
  | cons v vs ih =>
    cases out' with
    | nil => simp at h
    | cons w ws =>
      rw [renderOut_cons, renderOut_cons] at h
      obtain ⟨rfl, hrest⟩ := decimal_newline_inj h
      rw [ih hrest]

/-- Settles O52: the newline of each value ends its numeral, and the numeral gives the value. -/
theorem consoleTextIsOneNumeralALine : Obligations.ConsoleTextIsOneNumeralALine :=
  ⟨renderOut_nil, renderOut_cons, fun _ _ h => renderOut_injective h⟩

end Sys2Proof.Machine
end
